-- ==== Sys2Proof/Word.lean ====
section
/-! DEFINITION. The machine's words: the widths spec/00_scope.md R8 fixes, and nothing else.
Bit slices, sign extension and truncation stand where they are used (Decode.lean, Machine/Operands.lean). -/

namespace Sys2Proof

/-- A memory word, a register value or an instruction word: XLEN = ILEN = 32 bits (R8, R13). -/
abbrev Word := BitVec 32

/-- An address, and the value of the program counter: ADDR_W = 8 bits (R8, R24). -/
abbrev Addr := BitVec 8

/-- A register index, as the 5-bit fields rs, rt and rd give it (R20, R101). -/
abbrev RegIdx := BitVec 5

/-- The immediate of the I-form, 16 raw bits (R101, R104). -/
abbrev Imm := BitVec 16

/-- The shamt field, which no instruction uses (R101, R104). -/
abbrev Shamt := BitVec 5

/-- An opcode or a funct field, 6 bits (R101). -/
abbrev Op6 := BitVec 6

end Sys2Proof
end

