-- ==== Sys2Proof/Syntax.lean ====
section
/-! DEFINITION. The instructions: one constructor per row of spec/opcode_table.json (spec/30_encoding.md R108, R118).
Every constructor carries all the bits of its word that its row leaves free, so that no bit of an encoding is dropped
(R106, R119). -/

namespace Sys2Proof

/-- The nine rows of the opcode table: seven defined instructions, and the two kinds of unsupported word. -/
inductive Instr where
  /-- ADD Rd, Rs, Rt (R150); shamt is carried and ignored (R109). -/
  | add (rs rt rd : RegIdx) (shamt : Shamt)
  /-- SUB Rd, Rs, Rt (R151). -/
  | sub (rs rt rd : RegIdx) (shamt : Shamt)
  /-- SLT Rd, Rs, Rt (R152). -/
  | slt (rs rt rd : RegIdx) (shamt : Shamt)
  /-- ADDI Rt, Rs, imm (R153). -/
  | addi (rs rt : RegIdx) (imm : Imm)
  /-- BEQ Rs, Rt, off (R160). -/
  | beq (rs rt : RegIdx) (imm : Imm)
  /-- LW Rt, [Rs+imm] (R171). -/
  | lw (rs rt : RegIdx) (imm : Imm)
  /-- SW Rt, [Rs+imm] (R172). -/
  | sw (rs rt : RegIdx) (imm : Imm)
  /-- Unsupported funct under opcode 0 (R180), with its raw funct (R106). -/
  | unknownFunct (rs rt rd : RegIdx) (shamt : Shamt) (funct : Op6)
  /-- Unsupported opcode (R181), with its raw opcode and the raw low six bits (R106). -/
  | unknownOpcode (opcode : Op6) (rs rt rd : RegIdx) (shamt : Shamt) (funct : Op6)
  deriving DecidableEq, Repr

/-- The mnemonic of the instruction's row in spec/opcode_table.json. -/
def Instr.mnemonic : Instr → String
  | .add _ _ _ _ => "ADD"
  | .sub _ _ _ _ => "SUB"
  | .slt _ _ _ _ => "SLT"
  | .addi _ _ _ => "ADDI"
  | .beq _ _ _ => "BEQ"
  | .lw _ _ _ => "LW"
  | .sw _ _ _ => "SW"
  | .unknownFunct _ _ _ _ _ => "UNKNOWN_FUNCT"
  | .unknownOpcode _ _ _ _ _ _ => "UNKNOWN_OPCODE"

end Sys2Proof
end

