-- ==== Sys2Proof/WellFormed.lean ====
section
/-! DEFINITION. Which terms of Instr stand for a word: all of them, but for an unsupported word that claims a funct or an
opcode which spec/30_encoding.md R108 gives to one of the seven instructions. Field widths are in the types. -/

namespace Sys2Proof

/-- The three functs that opcode 0 defines (R108). -/
def definedFuncts : List Op6 := [0x20#6, 0x22#6, 0x2A#6]

/-- The five opcodes that are not unsupported by themselves (R108, R181). -/
def definedOpcodes : List Op6 := [0x00#6, 0x04#6, 0x08#6, 0x23#6, 0x2B#6]

/-- An instruction term that some word decodes to: an UNKNOWN_FUNCT has none of the three defined functs (R180), an
UNKNOWN_OPCODE none of the five opcodes (R181). -/
def Instr.wellFormed : Instr → Bool
  | .add _ _ _ _ => true
  | .sub _ _ _ _ => true
  | .slt _ _ _ _ => true
  | .addi _ _ _ => true
  | .beq _ _ _ => true
  | .lw _ _ _ => true
  | .sw _ _ _ => true
  | .unknownFunct _ _ _ _ funct => !definedFuncts.contains funct
  | .unknownOpcode opcode _ _ _ _ _ => !definedOpcodes.contains opcode

end Sys2Proof
end

