-- ==== Sys2Proof/Decode.lean ====
section
/-! DEFINITION. The instruction decoder DEC (spec/30_encoding.md): the fields of a word, the class, the decoded form, the
instruction; then the encoder, written from the same layouts; then the opcode table's rows in their priority order.
The decoder is total and never rejects: R105 "Must never fail", R112 "none is refused". An instruction is one whole
word at one address and no byte order exists (R57, R100), so the decoder's input is the word itself. -/

namespace Sys2Proof

/-- `w[hi:lo]`: bits hi down to lo of w, `(w div 2^lo) mod 2^(hi-lo+1)` (R12). -/
def slice (hi lo : Nat) (w : Word) : BitVec (hi - lo + 1) :=
  BitVec.ofNat (hi - lo + 1) (w.toNat / 2 ^ lo % 2 ^ (hi - lo + 1))

/-! The seven fields (R101). -/

def opcodeOf (w : Word) : Op6 := slice 31 26 w
def rsOf (w : Word) : RegIdx := slice 25 21 w
def rtOf (w : Word) : RegIdx := slice 20 16 w
def rdOf (w : Word) : RegIdx := slice 15 11 w
def shamtOf (w : Word) : Shamt := slice 10 6 w
def functOf (w : Word) : Op6 := slice 5 0 w
def immOf (w : Word) : Imm := slice 15 0 w

/-- The decoder's eight classes (R106). -/
inductive OpClass where
  | add | sub | slt | addi | beq | lw | sw | unknown
  deriving DecidableEq, Repr

/-- The opcode map: a function of opcode and, when opcode is 0, of funct (R108, R110). -/
def classify (opcode funct : Op6) : OpClass :=
  if opcode = 0x00#6 then
    if funct = 0x20#6 then .add
    else if funct = 0x22#6 then .sub
    else if funct = 0x2A#6 then .slt
    else .unknown
  else if opcode = 0x08#6 then .addi
  else if opcode = 0x04#6 then .beq
  else if opcode = 0x23#6 then .lw
  else if opcode = 0x2B#6 then .sw
  else .unknown

/-- DecodedForm (R106): the class and all seven extracted fields, whichever form the word is later read in. -/
structure DecodedForm where
  cls : OpClass
  opcode : Op6
  rs : RegIdx
  rt : RegIdx
  rd : RegIdx
  shamt : Shamt
  funct : Op6
  imm : Imm
  deriving DecidableEq, Repr

/-- `Decode(w)` (R110): pure, total and stateless (R105, R120). -/
def decodeForm (w : Word) : DecodedForm :=
  { cls := classify (opcodeOf w) (functOf w)
    opcode := opcodeOf w
    rs := rsOf w
    rt := rtOf w
    rd := rdOf w
    shamt := shamtOf w
    funct := functOf w
    imm := immOf w }

/-- The instruction a decoded form dispatches to (R108, R133): UNKNOWN with opcode 0 is the unsupported funct (R180),
UNKNOWN with another opcode the unsupported opcode (R181). -/
def DecodedForm.toInstr (d : DecodedForm) : Instr :=
  match d.cls with
  | .add => .add d.rs d.rt d.rd d.shamt
  | .sub => .sub d.rs d.rt d.rd d.shamt
  | .slt => .slt d.rs d.rt d.rd d.shamt
  | .addi => .addi d.rs d.rt d.imm
  | .beq => .beq d.rs d.rt d.imm
  | .lw => .lw d.rs d.rt d.imm
  | .sw => .sw d.rs d.rt d.imm
  | .unknown =>
    if d.opcode = 0x00#6 then .unknownFunct d.rs d.rt d.rd d.shamt d.funct
    else .unknownOpcode d.opcode d.rs d.rt d.rd d.shamt d.funct

/-- The instruction of a word. -/
def decode (w : Word) : Instr := (decodeForm w).toInstr

/-- The instruction the decoder reads from a table row's word: bit 0 of `w` is bit 0 of the word (R12, R101). Every
instruction is one 32-bit word (R100), so bits above 31 belong to no instruction and are not read. -/
def decodeTableWord (_nbits w : Nat) : Option Instr := some (decode (BitVec.ofNat 32 w))

/-! The encoder. The powers of two stand left of the fields so that the kernel never unrolls a product by a power. -/

/-- The R-form word `opcode*2^26 + rs*2^21 + rt*2^16 + rd*2^11 + shamt*2^6 + funct` (R102). -/
def rForm (opcode : Op6) (rs rt rd : RegIdx) (shamt : Shamt) (funct : Op6) : Word :=
  BitVec.ofNat 32
    (2 ^ 26 * opcode.toNat + 2 ^ 21 * rs.toNat + 2 ^ 16 * rt.toNat + 2 ^ 11 * rd.toNat + 2 ^ 6 * shamt.toNat
      + funct.toNat)

/-- The I-form word `opcode*2^26 + rs*2^21 + rt*2^16 + imm` (R103). -/
def iForm (opcode : Op6) (rs rt : RegIdx) (imm : Imm) : Word :=
  BitVec.ofNat 32 (2 ^ 26 * opcode.toNat + 2 ^ 21 * rs.toNat + 2 ^ 16 * rt.toNat + imm.toNat)

/-- The word of an instruction (R102, R103, with the opcodes and functs of R108); canonical when shamt is 0 (R116). -/
def encode : Instr → Word
  | .add rs rt rd shamt => rForm 0x00#6 rs rt rd shamt 0x20#6
  | .sub rs rt rd shamt => rForm 0x00#6 rs rt rd shamt 0x22#6
  | .slt rs rt rd shamt => rForm 0x00#6 rs rt rd shamt 0x2A#6
  | .addi rs rt imm => iForm 0x08#6 rs rt imm
  | .beq rs rt imm => iForm 0x04#6 rs rt imm
  | .lw rs rt imm => iForm 0x23#6 rs rt imm
  | .sw rs rt imm => iForm 0x2B#6 rs rt imm
  | .unknownFunct rs rt rd shamt funct => rForm 0x00#6 rs rt rd shamt funct
  | .unknownOpcode opcode rs rt rd shamt funct => rForm opcode rs rt rd shamt funct

/-! The machine-readable table. -/

/-- A row of the opcode table (R118). -/
structure OpcodeRow where
  mnemonic : String
  mask : Word
  bits : Word
  deriving DecidableEq, Repr

/-- A word is a row's when `w AND mask = match` (R118). -/
def OpcodeRow.covers (r : OpcodeRow) (w : Word) : Bool := w &&& r.mask == r.bits

/-- The nine rows in priority order (R118, spec/opcode_table.json). -/
def opcodeRows : List OpcodeRow :=
  [ { mnemonic := "ADD", mask := 0xFC00003F#32, bits := 0x00000020#32 },
    { mnemonic := "SUB", mask := 0xFC00003F#32, bits := 0x00000022#32 },
    { mnemonic := "SLT", mask := 0xFC00003F#32, bits := 0x0000002A#32 },
    { mnemonic := "ADDI", mask := 0xFC000000#32, bits := 0x20000000#32 },
    { mnemonic := "BEQ", mask := 0xFC000000#32, bits := 0x10000000#32 },
    { mnemonic := "LW", mask := 0xFC000000#32, bits := 0x8C000000#32 },
    { mnemonic := "SW", mask := 0xFC000000#32, bits := 0xAC000000#32 },
    { mnemonic := "UNKNOWN_FUNCT", mask := 0xFC000000#32, bits := 0x00000000#32 },
    { mnemonic := "UNKNOWN_OPCODE", mask := 0x00000000#32, bits := 0x00000000#32 } ]

/-- The mnemonic of the first row that matches: "the first row that matches wins" (R118). -/
def tableMnemonic (w : Word) : Option String :=
  (opcodeRows.find? (fun r => r.covers w)).map OpcodeRow.mnemonic

end Sys2Proof
end

