-- ==== Sys2Proof/Config.lean ====
section
/-! DEFINITION. What an implementation fixes: the constants of spec/00_scope.md R8 and the cache geometry of R9,
a parameter that the host gives to reset (R202, D16). The spec leaves no value open, so there is no free value here. -/

namespace Sys2Proof.Config

/-- NREG: the number of general registers (R8). -/
def nreg : Nat := 32

/-- MEM_WORDS: the number of addressable locations (R8). -/
def memWords : Nat := 256

end Sys2Proof.Config

namespace Sys2Proof

/-- The cache's geometry (R9): NUM_SETS and BLOCKS_PER_SET, each an integer at least 1.
ℕ+ is that type: a cache with no set or no way cannot be built (spec/93_implementation_defined.md U1). -/
structure CacheConfig where
  /-- NUM_SETS (N); it need not be a power of two (R9, R62). -/
  numSets : ℕ+
  /-- BLOCKS_PER_SET (K). -/
  blocksPerSet : ℕ+
  deriving DecidableEq, Repr

/-- The default geometry: 4 sets of 2 ways (R9). -/
def CacheConfig.standard : CacheConfig := { numSets := 4, blocksPerSet := 2 }

/-- Construction from plain numbers: a zero count is refused (U1), every other pair is legal (R9). -/
def CacheConfig.ofCounts (n k : Nat) : Option CacheConfig :=
  if h : 0 < n ∧ 0 < k then some { numSets := ⟨n, h.1⟩, blocksPerSet := ⟨k, h.2⟩ } else none

end Sys2Proof
end

