-- ==== Sys2Proof/Machine/State.lean ====
section
/-! DEFINITION. The state of the block, as spec/10_state.md R38 lists it, as plain data, and its value at reset (R37). -/

namespace Sys2Proof.Machine

/-- The kind tag of a Backing Memory entry (R51). No rule reads it; it is only observable. -/
inductive Kind where
  | instruction
  | data
  deriving DecidableEq, Repr

/-- An entry of Backing Memory: a 32-bit word and its kind tag (R33, R50). -/
structure Entry where
  word : Word
  kind : Kind
  deriving DecidableEq, Repr

/-- Backing Memory: a partial map from address to entry (R33), as its list of (address, entry) pairs. An address that is
not listed is absent. The addressable unit is the 32-bit word and there is no byte (R56, R57; assumption log 1).
The canonical form, addresses strictly rising and below 256, is `Memory.wf` (Machine/Ops.lean). -/
abbrev Memory := List (Nat × Entry)

/-- A block the cache holds in a valid way (R34): the fields of an invalid way do not exist (U7). -/
structure Block where
  /-- `addr div NUM_SETS`; 8 bits are enough (R34). -/
  tag : BitVec 8
  /-- The cached word. -/
  data : Word
  /-- The value of `accessCounter` at the block's last hit, in-place update, fill or replacement (R34). -/
  lastUsed : Nat
  deriving DecidableEq, Repr

/-- The cache controller's state (R34, R35) with its geometry (R9, R30). Way j of set s is the j-th element of the s-th
list: `none` is an invalid way, `some b` a valid one. That there are NUM_SETS lists of BLOCKS_PER_SET ways is part of the
invariant `CacheInv` (Safety.lean). The counters are unbounded (R10). -/
structure Cache where
  cfg : CacheConfig
  sets : List (List (Option Block))
  accessCounter : Nat
  hits : Nat
  misses : Nat
  deriving DecidableEq, Repr

/-- The complete state (R38). The trace channel is an output, not state (R38, R206; Machine/HostOps.lean). -/
structure State where
  /-- `x[0]` .. `x[31]`: none is hardwired (R20, R21). -/
  regs : Vector Word 32
  /-- The program counter, a word address (R24). -/
  pc : Addr
  /-- The halted flag: false is Running, true is Halted (R27, R130). -/
  halted : Bool
  /-- The number of steps executed while Running since reset (R28). -/
  cycles : Nat
  /-- Backing Memory (R33). -/
  mem : Memory
  /-- The cache controller (R34, R35). -/
  cache : Cache
  deriving DecidableEq, Repr

/-- Why a step stops with a fault: never. R190: "it has no fault outcome for any word, any address or any register
value", so this type has no constructor. That is exact: neither safe nor unsafe. -/
inductive Fault where
  deriving DecidableEq, Repr

/-- Why an instruction has no meaning in the model. -/
inductive Refusal where
  /-- Raised by `exec` alone, for an instruction the model gives no meaning. No arm of `exec` raises it: every row of the
  opcode table has its meaning. Safe: the machine would stop where the hardware goes on. -/
  | notModelled (mnemonic : String)
  deriving DecidableEq, Repr

/-- A cache as it is constructed: every way of every set invalid, the three counters 0 (R37, D5). -/
def Cache.fresh (cfg : CacheConfig) : Cache :=
  { cfg := cfg
    sets := List.replicate cfg.numSets (List.replicate cfg.blocksPerSet none)
    accessCounter := 0
    hits := 0
    misses := 0 }

/-- The state right after `reset(N, K)` (R37, R202, R211). -/
def State.resetWith (cfg : CacheConfig) : State :=
  { regs := Vector.replicate 32 0#32
    pc := 0#8
    halted := false
    cycles := 0
    mem := []
    cache := Cache.fresh cfg }

/-- The machine right after reset with the default geometry, 4 sets of 2 ways (R9, R37). -/
def State.reset : State := State.resetWith CacheConfig.standard

end Sys2Proof.Machine
end

