-- ==== Sys2Proof/Machine/CacheOps.lean ====
section
/-! DEFINITION. The cache controller CC (spec/20_memory.md part 3): address decomposition, lookup, victim selection, the
two operations `CacheRead` and `CacheWrite`, and the hit rate. None can fail, on any state (R70). -/

namespace Sys2Proof.Machine

/-- `set_index = addr mod NUM_SETS` (R62). -/
def Cache.setIndex (c : Cache) (a : Addr) : Nat := a.toNat % (c.cfg.numSets : Nat)

/-- `tag = addr div NUM_SETS` (R62); it is at most 255, so 8 bits hold it (R34). -/
def Cache.tagOf (c : Cache) (a : Addr) : BitVec 8 := BitVec.ofNat 8 (a.toNat / (c.cfg.numSets : Nat))

/-- The ways of set s, in increasing way number (R34). -/
def Cache.ways (c : Cache) (s : Nat) : List (Option Block) := c.sets.getD s []

/-- Way j of set s: `none` when it is invalid. -/
def Cache.way (c : Cache) (s j : Nat) : Option Block := (c.ways s).getD j none

/-- The lookup in a set (R63): the lowest way that is valid and has tag t, with its block. -/
def findTag (t : BitVec 8) : List (Option Block) → Option (Nat × Block)
  | [] => none
  | none :: ws => (findTag t ws).map (fun p => (p.1 + 1, p.2))
  | some b :: ws => if b.tag = t then some (0, b) else (findTag t ws).map (fun p => (p.1 + 1, p.2))

/-- The lookup of an address (R63). -/
def Cache.find (c : Cache) (a : Addr) : Option (Nat × Block) := findTag (c.tagOf a) (c.ways (c.setIndex a))

/-- The lowest-numbered invalid way of a set, if it has one (R67 case B). -/
def firstFree : List (Option Block) → Option Nat
  | [] => none
  | none :: _ => some 0
  | some _ :: ws => (firstFree ws).map (fun j => j + 1)

/-- The rest of the scan of R68: `best` is the way chosen so far and `used` its `last_used`; k is the way at the head. -/
def victimScan (best used k : Nat) : List Block → Nat
  | [] => best
  | b :: bs => if b.lastUsed < used then victimScan k b.lastUsed (k + 1) bs else victimScan best used (k + 1) bs

/-- `Victim(s)`: the way with the smallest `last_used`, the lowest way number among equals (R68). -/
def victim : List Block → Nat
  | [] => 0
  | b :: bs => victimScan 0 b.lastUsed 1 bs

/-- The way `CacheWrite` writes (R67): the one that has the tag (A), else the lowest invalid one (B), else the victim (C).
In case C every way is valid, so `filterMap id` keeps every way at its own number. -/
def targetWay (t : BitVec 8) (ws : List (Option Block)) : Nat :=
  match findTag t ws with
  | some (j, _) => j
  | none =>
    match firstFree ws with
    | some j => j
    | none => victim (ws.filterMap id)

/-- Way j of set s replaced by the valid block b. -/
def Cache.setWay (c : Cache) (s j : Nat) (b : Block) : Cache :=
  { c with sets := c.sets.set s ((c.ways s).set j (some b)) }

/-- Every call begins by adding 1 to `access_counter` (R64). -/
def Cache.tick (c : Cache) : Cache := { c with accessCounter := c.accessCounter + 1 }

/-- `CacheRead(a)` (R66): `(data, hit)` and the cache after the call. On a miss the data is the placeholder 0. -/
def Cache.read (c : Cache) (a : Addr) : (Word × Bool) × Cache :=
  match c.find a with
  | some (j, b) =>
    ((b.data, true),
      { c.tick.setWay (c.setIndex a) j { b with lastUsed := c.tick.accessCounter } with hits := c.hits + 1 })
  | none => ((0#32, false), { c.tick with misses := c.misses + 1 })

/-- `CacheWrite(a, v)` (R67). In case A the matching way already has the tag, so writing its data and its `last_used` is
writing this block too; in cases B and C the whole block is written. -/
def Cache.write (c : Cache) (a : Addr) (v : Word) : Cache :=
  c.tick.setWay (c.setIndex a) (targetWay (c.tagOf a) (c.ways (c.setIndex a)))
    { tag := c.tagOf a, data := v, lastUsed := c.tick.accessCounter }

/-- `get_hit_rate()`: the exact fraction `hits / (hits + misses)`, and 0 when there was no access (R69, D8). -/
def Cache.hitRate (c : Cache) : ℚ :=
  if c.hits + c.misses = 0 then 0 else (c.hits : ℚ) / ((c.hits : ℚ) + (c.misses : ℚ))

end Sys2Proof.Machine
end

