-- ==== Sys2Proof/Machine/Operands.lean ====
section
/-! DEFINITION. Operand forms and arithmetic: the signed reading, truncation and sign extension of spec/00_scope.md R13,
the 32-bit arithmetic of spec/41_alu.md, the program counter's successor and branch target, and the effective address. -/

namespace Sys2Proof.Machine

/-- `signed_N(v)`: v if `v < 2^(N-1)`, else `v - 2^N` (R13). -/
def signed (n : Nat) (v : BitVec n) : Int :=
  if v.toNat < 2 ^ (n - 1) then (v.toNat : Int) else (v.toNat : Int) - 2 ^ n

/-- `trunc_N(i)`: `i mod 2^N`, for an integer of either sign (R13). -/
def trunc (n : Nat) (i : Int) : BitVec n := BitVec.ofInt n i

/-- `sext_32(imm)` = `trunc_32(signed_16(imm))` (R13, R104). -/
def sext32 (imm : Imm) : Word := trunc 32 (signed 16 imm)

/-- `a +_32 b` (R13, R150, R154). -/
def add32 (a b : Word) : Word := trunc 32 ((a.toNat : Int) + (b.toNat : Int))

/-- `a -_32 b` (R13, R151, R154). -/
def sub32 (a b : Word) : Word := trunc 32 ((a.toNat : Int) - (b.toNat : Int))

/-- `trunc_32(a + signed_16(imm))` (R153). -/
def addImm32 (a : Word) (imm : Imm) : Word := trunc 32 ((a.toNat : Int) + signed 16 imm)

/-- `pc +_8 1`: the sequential successor, which wraps from 255 to 0 (R25). -/
def nextPc (pc : Addr) : Addr := trunc 8 ((pc.toNat : Int) + 1)

/-- The target of a taken BEQ at pc: `trunc_8(pc + 1 + signed_16(imm))` (R160). -/
def branchTarget (pc : Addr) (imm : Imm) : Addr := trunc 8 ((pc.toNat : Int) + 1 + signed 16 imm)

/-- The negative path's 16-bit intermediate: pc widened to 16 bits, plus 1, plus off, in 16-bit arithmetic (R161). -/
def branchSum16 (pc : Addr) (imm : Imm) : BitVec 16 := pc.setWidth 16 + 1#16 + imm

/-- The taken branch's target by the source's two arithmetic paths (R161): for a negative offset the low 8 bits of the
16-bit sum, otherwise `(pc +_8 1) +_8 trunc_8(off)`. It is the same function as `branchTarget` (R162). -/
def branchTargetTwoPaths (pc : Addr) (imm : Imm) : Addr :=
  if signed 16 imm < 0 then (branchSum16 pc imm).setWidth 8 else pc + 1#8 + trunc 8 (signed 16 imm)

/-- The effective address of LW and SW: `trunc_8(x[rs] + signed_16(imm))` (R170). -/
def effectiveAddr (base : Word) (imm : Imm) : Addr := trunc 8 ((base.toNat : Int) + signed 16 imm)

end Sys2Proof.Machine
end

