-- ==== Sys2Proof/Machine/Flags.lean ====
section
/-! DEFINITION. The hardware has no status flags (spec/10_state.md R29). What stands here are the two comparisons of the
instruction set: SLT writes its result to a general register, BEQ compares two registers directly. -/

namespace Sys2Proof.Machine

/-- `signed_32(a) < signed_32(b)`, on the two's-complement integers and not on a difference (R152). -/
def signedLess (a b : Word) : Bool := decide (signed 32 a < signed 32 b)

/-- SLT's result: the 32-bit value 1 or 0 (R152). -/
def setLess (a b : Word) : Word := if signedLess a b then 1#32 else 0#32

/-- BEQ's condition: equality of the two 32-bit values (R160). -/
def sameWord (a b : Word) : Bool := decide (a = b)

end Sys2Proof.Machine
end

