-- ==== Sys2Proof/Machine/Ops.lean ====
section
/-! DEFINITION. The named operations through which a rule touches state (spec/00_scope.md R14): registers, program counter,
Backing Memory, the cache inside the state, fetch, and the end of a step. There is no operation that takes an exception
or returns from one: the hardware has neither (spec/60_exceptions.md R190, R194, R195). -/

namespace Sys2Proof.Machine

/-! Backing Memory (spec/20_memory.md part 1). -/

/-- The canonical form: addresses strictly rising, each one of the 256 (R33, R50). An absent address is not listed. -/
abbrev Memory.wf (m : Memory) : Prop :=
  m.Pairwise (fun p q => p.1 < q.1) ∧ ∀ p ∈ m, p.1 < Config.memWords

/-- The entry at an address, or none when it is absent (R33). -/
def Memory.entryAt : Memory → Nat → Option Entry
  | [], _ => none
  | (b, e) :: m, a => if a = b then some e else Memory.entryAt m a

/-- Create or replace the entry at an address, in its place in the order (R54). -/
def Memory.put : Memory → Nat → Entry → Memory
  | [], a, e => [(a, e)]
  | (b, f) :: m, a, e =>
    if a < b then (a, e) :: (b, f) :: m
    else if a = b then (a, e) :: m
    else (b, f) :: Memory.put m a e

/-- The entry of the state's Backing Memory at an address. -/
def State.entryAt (s : State) (a : Addr) : Option Entry := s.mem.entryAt a.toNat

/-- `MemPresent(a)` (R52). -/
def State.memPresent (s : State) (a : Addr) : Bool := (s.entryAt a).isSome

/-- `MemRead(a, 32)` (R53), the word of the entry at a; none where a is absent, where the callers handle absence. -/
def State.memRead (s : State) (a : Addr) : Option Word := (s.entryAt a).map Entry.word

/-- `MemWrite(a, 32, v, k)` (R54). -/
def State.memWrite (s : State) (a : Addr) (v : Word) (k : Kind) : State :=
  { s with mem := s.mem.put a.toNat { word := v, kind := k } }

/-! Registers (spec/10_state.md part 1) and program counter (part 2). -/

/-- `x[i]` (R20). -/
def State.readReg (s : State) (i : RegIdx) : Word := s.regs[i.toNat]'i.isLt

/-- `x[i] <- v`: every i, 0 included, is written (R21). -/
def State.writeReg (s : State) (i : RegIdx) (v : Word) : State :=
  { s with regs := s.regs.set i.toNat v i.isLt }

/-- `pc <- t` (R24). -/
def State.setPc (s : State) (t : Addr) : State := { s with pc := t }

/-- `pc <- pc +_8 1` (R25). -/
def State.advancePc (s : State) : State := s.setPc (nextPc s.pc)

/-! The cache inside the state. -/

/-- The state with another cache. -/
def State.withCache (s : State) (c : Cache) : State := { s with cache := c }

/-- `CacheRead(a)` on the state (R66): the answer and the state after. -/
def State.cacheRead (s : State) (a : Addr) : (Word × Bool) × State :=
  ((s.cache.read a).1, s.withCache (s.cache.read a).2)

/-- `CacheWrite(a, v)` on the state (R67). -/
def State.cacheWrite (s : State) (a : Addr) (v : Word) : State := s.withCache (s.cache.write a v)

/-! The frame of a step (spec/40_step.md). -/

/-- The fetched word: the word at pc read straight from Backing Memory, or 0 where pc is absent. The cache is not
consulted, no entry is created, the kind is not looked at (R61, R132). -/
def State.fetch (s : State) : Word := (s.memRead s.pc).getD 0#32

/-- The end of an executed step: the cycle count (R134), then the halt check at the new pc (R135). -/
def State.finishStep (s : State) : State :=
  { s with cycles := s.cycles + 1, halted := s.halted || !s.memPresent s.pc }

/-- The word w, tagged Instruction, stored at pc, in a Running engine: what a fetch of w needs. -/
def State.placeAtPc (s : State) (w : Word) : State :=
  { s.memWrite s.pc w .instruction with halted := false }

end Sys2Proof.Machine
end

