-- ==== Sys2Proof/Machine/Alu.lean ====
section
/-! DEFINITION. The arithmetic instructions (spec/41_alu.md). Each reads its sources before it writes (R155), never traps,
and touches neither memory nor cache. -/

namespace Sys2Proof.Machine

/-- A result in a register, then `pc <- pc +_8 1`: the shape all four share. -/
def State.finishAlu (s : State) (dst : RegIdx) (v : Word) : Host.Outcome State Fault Refusal :=
  .next (s.writeReg dst v).advancePc

/-- ADD (R150). -/
def execAdd (rs rt rd : RegIdx) (s : State) : Host.Outcome State Fault Refusal :=
  s.finishAlu rd (add32 (s.readReg rs) (s.readReg rt))

/-- SUB (R151). -/
def execSub (rs rt rd : RegIdx) (s : State) : Host.Outcome State Fault Refusal :=
  s.finishAlu rd (sub32 (s.readReg rs) (s.readReg rt))

/-- SLT (R152). -/
def execSlt (rs rt rd : RegIdx) (s : State) : Host.Outcome State Fault Refusal :=
  s.finishAlu rd (setLess (s.readReg rs) (s.readReg rt))

/-- ADDI (R153): rt is the destination. -/
def execAddi (rs rt : RegIdx) (imm : Imm) (s : State) : Host.Outcome State Fault Refusal :=
  s.finishAlu rt (addImm32 (s.readReg rs) imm)

end Sys2Proof.Machine
end

