-- ==== Sys2Proof/Machine/Branch.lean ====
section
/-! DEFINITION. The one control transfer, BEQ (spec/42_branch.md). -/

namespace Sys2Proof.Machine

/-- BEQ (R160): only pc changes; every target is legal (R164). -/
def execBeq (rs rt : RegIdx) (imm : Imm) (s : State) : Host.Outcome State Fault Refusal :=
  if sameWord (s.readReg rs) (s.readReg rt) then .next (s.setPc (branchTarget s.pc imm))
  else .next s.advancePc

end Sys2Proof.Machine
end

