-- ==== Sys2Proof/Machine/LoadStore.lean ====
section
/-! DEFINITION. Loads and stores (spec/43_loadstore.md). -/

namespace Sys2Proof.Machine

/-- What LW does on a cache miss at address a (R171): M1, the address is present: its word, and the fill; M2, it is absent:
the entry (0, Data) is created (D13), the register gets 0, and the fill is 0. -/
def State.loadMiss (s : State) (rt : RegIdx) (a : Addr) : State :=
  match s.memRead a with
  | some v => (s.writeReg rt v).cacheWrite a v
  | none => ((s.memWrite a 0#32 .data).writeReg rt 0#32).cacheWrite a 0#32

/-- LW (R171): case H takes the data from the cache and does not consult memory (R75). -/
def execLw (rs rt : RegIdx) (imm : Imm) (s : State) : Host.Outcome State Fault Refusal :=
  match s.cacheRead (effectiveAddr (s.readReg rs) imm) with
  | ((data, true), s') => .next (s'.writeReg rt data).advancePc
  | ((_, false), s') => .next (s'.loadMiss rt (effectiveAddr (s.readReg rs) imm)).advancePc

/-- SW (R172): Backing Memory first, then the cache, which allocates (R76, D18). -/
def execSw (rs rt : RegIdx) (imm : Imm) (s : State) : Host.Outcome State Fault Refusal :=
  .next
    (((s.memWrite (effectiveAddr (s.readReg rs) imm) (s.readReg rt) .data).cacheWrite
      (effectiveAddr (s.readReg rs) imm) (s.readReg rt)).advancePc)

end Sys2Proof.Machine
end

