-- ==== Sys2Proof/Machine/Unsupported.lean ====
section
/-! DEFINITION. The unsupported words (spec/44_unsupported.md): no effect but the program counter's advance. They do not
trap (R112). -/

namespace Sys2Proof.Machine

/-- Unsupported funct under opcode 0 (R180); the word 0 is one (R113). -/
def execUnknownFunct (s : State) : Host.Outcome State Fault Refusal := .next s.advancePc

/-- Unsupported opcode (R181). -/
def execUnknownOpcode (s : State) : Host.Outcome State Fault Refusal := .next s.advancePc

end Sys2Proof.Machine
end

