-- ==== Sys2Proof/Machine/Step.lean ====
section
/-! DEFINITION. The step of the execution engine (spec/40_step.md R131), which calls the operations of Machine/Ops.lean. -/

namespace Sys2Proof.Machine

/-- `Step()` (R131): nothing when Halted (R136); otherwise fetch, decode, execute, count the cycle, make the halt check.
The trace event of the step is `State.traceEvent` (Machine/HostOps.lean). -/
def step (s : State) : Host.Outcome State Fault Refusal :=
  if s.halted then .next s
  else
    match exec (decode s.fetch) s with
    | .next t => .next t.finishStep
    | .fault r => .fault r
    | .refused r => .refused r

/-- The instruction word w stored where `step` fetches next, in a Running engine: it stands for the host's `load` of that
word (R201, R213; assumption log 7). A word has 32 bits, whatever `nbits` says (R100). -/
def State.withFetchWord (s : State) (_nbits w : Nat) : State := s.placeAtPc (BitVec.ofNat 32 w)

end Sys2Proof.Machine
end

