-- ==== Sys2Proof/Machine/HostOps.lean ====
section
/-! DEFINITION. The host's side of the block (spec/60_exceptions.md part 3): the operations of R200, each one atomic
function of the state, and the trace channel. -/

namespace Sys2Proof.Machine

/-- `reset(N, K)`: nothing survives (R202, R210, R211). -/
def hostReset (cfg : CacheConfig) (_s : State) : State := State.resetWith cfg

/-- `load(a, w, k)`: `MemWrite(a, 32, w, k)` and nothing else (R201). -/
def hostLoad (a : Addr) (w : Word) (k : Kind) (s : State) : State := s.memWrite a w k

/-- `cache_read(a)`: exactly `CacheRead(a)` (R204). -/
def hostCacheRead (a : Addr) (s : State) : (Word × Bool) × State := s.cacheRead a

/-- `cache_write(a, v)`: exactly `CacheWrite(a, v)` (R204). -/
def hostCacheWrite (a : Addr) (v : Word) (s : State) : State := s.cacheWrite a v

/-- `get_hit_rate()`: a pure query (R205). -/
def hostHitRate (s : State) : ℚ := s.cache.hitRate

/-- `observe()`: the whole state, unchanged (R39, R207). An absent address and an invalid way carry no value (U7). -/
def hostObserve (s : State) : State := s

/-- An event of the trace channel, with the content D11 gives it: the pc before the step, the fetched word and its decoded
form (R142). -/
structure TraceEvent where
  pc : Addr
  word : Word
  decoded : DecodedForm
  deriving DecidableEq, Repr

/-- The event the step from s emits: one per executed instruction, none on a Halted engine (R136, R142). -/
def State.traceEvent (s : State) : Option TraceEvent :=
  if s.halted then none else some { pc := s.pc, word := s.fetch, decoded := decodeForm s.fetch }

/-- Whether the trace reports the instruction as unsupported (R183). -/
def TraceEvent.unsupported (e : TraceEvent) : Bool := decide (e.decoded.cls = OpClass.unknown)

/-- The host's operations that change the block (R200). -/
inductive HostAction where
  | reset (cfg : CacheConfig)
  | load (a : Addr) (w : Word) (k : Kind)
  | step
  | cacheRead (a : Addr)
  | cacheWrite (a : Addr) (v : Word)
  deriving DecidableEq, Repr

/-- The two agents (R4): the execution engine, which executes a step, and the host, which does everything else. -/
inductive Agent where
  | exe
  | host
  deriving DecidableEq, Repr

/-- Which agent carries an operation out (R4): the host calls `step`, the engine executes it. -/
def HostAction.agent : HostAction → Agent
  | .reset _ => .host
  | .load _ _ _ => .host
  | .step => .exe
  | .cacheRead _ => .host
  | .cacheWrite _ _ => .host

/-- One operation of the host on the block: atomic, never overlapping another (R11, R200). -/
def hostApply (x : HostAction) (s : State) : Host.Outcome State Fault Refusal :=
  match x with
  | .reset cfg => .next (hostReset cfg s)
  | .load a w k => .next (hostLoad a w k s)
  | .step => Sys2Proof.Machine.step s
  | .cacheRead a => .next (hostCacheRead a s).2
  | .cacheWrite a v => .next (hostCacheWrite a v s)

end Sys2Proof.Machine
end

