-- ==== Sys2Proof/Safety.lean ====
section
/-! DEFINITION. What the claims are about: the invariants of spec/20_memory.md part 4, the host's duties of
spec/60_exceptions.md R209, and what a program can see of the state (spec/10_state.md R36). No step of this machine is
unsafe in the sense of a fault: `step` always answers a next state (R190). -/

namespace Sys2Proof.Machine

/-- The address that the block in a way of set `s` holds: `tag * NUM_SETS + set_index` (R62). -/
def Cache.blockAddr (c : Cache) (s : Nat) (b : Block) : Nat := b.tag.toNat * (c.cfg.numSets : Nat) + s

/-- The cache's shape (R34): NUM_SETS sets of BLOCKS_PER_SET ways. -/
structure CacheShape (c : Cache) : Prop where
  setCount : c.sets.length = c.cfg.numSets
  wayCount : ∀ ws ∈ c.sets, ws.length = c.cfg.blocksPerSet

/-- Address a is cached in way j, with block b (R63): the way is valid and has a's tag, and no lower valid way has it. -/
def Cache.Holds (c : Cache) (a : Addr) (j : Nat) (b : Block) : Prop :=
  c.way (a.toNat % (c.cfg.numSets : Nat)) j = some b ∧ b.tag.toNat = a.toNat / (c.cfg.numSets : Nat) ∧
    ∀ i d, i < j → c.way (a.toNat % (c.cfg.numSets : Nat)) i = some d → d.tag.toNat ≠ a.toNat / (c.cfg.numSets : Nat)

/-- Address a is not cached (R63): no valid way of its set has its tag. -/
def Cache.Lacks (c : Cache) (a : Addr) : Prop :=
  ∀ j b, c.way (a.toNat % (c.cfg.numSets : Nat)) j = some b → b.tag.toNat ≠ a.toNat / (c.cfg.numSets : Nat)

/-- The cache's invariant: its shape (R34), R71, R72, R73, the legality of every tag, and the counters' order (R74). -/
structure CacheInv (c : Cache) : Prop where
  /-- NUM_SETS sets of BLOCKS_PER_SET ways (R34). -/
  shape : CacheShape c
  /-- The valid ways of a set are ways 0 to m-1 (R71). -/
  filledFirst : ∀ s i j, i < j → (c.way s j).isSome → (c.way s i).isSome
  /-- No two valid ways of a set have the same tag (R72). -/
  tagsDistinct : ∀ s i j b d, c.way s i = some b → c.way s j = some d → b.tag = d.tag → i = j
  /-- All `last_used` values of valid ways, across the whole cache, are distinct (R73). -/
  stampsDistinct : ∀ s i r j b d, c.way s i = some b → c.way r j = some d → b.lastUsed = d.lastUsed → s = r ∧ i = j
  /-- Each `last_used` is at least 1 and at most `access_counter` (R73). -/
  stampsInRange : ∀ s i b, c.way s i = some b → 1 ≤ b.lastUsed ∧ b.lastUsed ≤ c.accessCounter
  /-- Every block is that of one of the 256 addresses (R34, R62). -/
  addressable : ∀ s i b, c.way s i = some b → c.blockAddr s b < Config.memWords
  /-- `hits + misses <= access_counter` (R74). -/
  counters : c.hits + c.misses ≤ c.accessCounter

/-- The invariant of the whole state: Backing Memory in canonical form, and the cache's. -/
structure Inv (s : State) : Prop where
  mem : s.mem.wf
  cache : CacheInv s.cache

/-- No way of the cache is valid, as after reset (R37). -/
def Cache.Empty (c : Cache) : Prop := ∀ s j, c.way s j = none

/-- Coherence of cache and Backing Memory (R75): the address of every valid way is present and its word is the block's. -/
def Coherent (s : State) : Prop :=
  ∀ set j b, s.cache.way set j = some b →
    (s.mem.entryAt (s.cache.blockAddr set b)).map Entry.word = some b.data

/-! What an operation leaves as it was. -/

/-- Every register but d holds its value. -/
def RegsKeptBut (d : RegIdx) (s t : State) : Prop := ∀ r, r ≠ d → t.readReg r = s.readReg r

/-- Every register holds its value. -/
def RegsKept (s t : State) : Prop := ∀ r, t.readReg r = s.readReg r

/-- Every address but a is present or absent as before, with the same word and kind. -/
def MemKeptBut (a : Addr) (s t : State) : Prop := ∀ b, b ≠ a → t.entryAt b = s.entryAt b

/-- Every address is present or absent as before, with the same word and kind. -/
def MemKept (s t : State) : Prop := ∀ b, t.entryAt b = s.entryAt b

/-- The halted flag and the cycle count are as before: an instruction writes neither, the frame of the step does (R131). -/
def ControlKept (s t : State) : Prop := t.halted = s.halted ∧ t.cycles = s.cycles

/-- The program counter is the sequential successor (R25). -/
def PcAdvanced (s t : State) : Prop := t.pc.toNat = (s.pc.toNat + 1) % 256

/-- The register an instruction writes (R22). -/
def destOf : Instr → Option RegIdx
  | .add _ _ rd _ => some rd
  | .sub _ _ rd _ => some rd
  | .slt _ _ rd _ => some rd
  | .addi _ rt _ => some rt
  | .beq _ _ _ => none
  | .lw _ rt _ => some rt
  | .sw _ _ _ => none
  | .unknownFunct _ _ _ _ _ => none
  | .unknownOpcode _ _ _ _ _ _ => none

/-- When a fetch can find its address absent (R139): only before the first executed step, or when Halted. -/
def FetchReady (s : State) : Prop := s.cycles = 0 ∨ s.halted = true ∨ s.memPresent s.pc = true

/-- The states the host reaches by a reset and then loads (R213, duties 1 and 2 of R209). -/
inductive Loaded : State → Prop where
  | reset (cfg : CacheConfig) : Loaded (State.resetWith cfg)
  | load (a : Addr) (w : Word) (k : Kind) {s : State} : Loaded s → Loaded (hostLoad a w k s)

/-- The states of a run in which the host keeps its duties (R209): reset, loads, then steps. -/
inductive DutifulRun : State → Prop where
  | start {s : State} : Loaded s → DutifulRun s
  | step {s t : State} : DutifulRun s → Sys2Proof.Machine.step s = .next t → DutifulRun t

/-- Everything but the cache: what a program's results are made of (R36, R226). -/
structure ProgramView where
  regs : Vector Word 32
  pc : Addr
  halted : Bool
  cycles : Nat
  mem : Memory
  deriving DecidableEq, Repr

/-- The program's view of a state (R36). -/
def State.view (s : State) : ProgramView :=
  { regs := s.regs, pc := s.pc, halted := s.halted, cycles := s.cycles, mem := s.mem }

end Sys2Proof.Machine
end

