-- ==== Sys2Proof/Certificates/Slice0/Obligations.lean ====
section
/-! DEFINITION. The statements for the provers, in the order of OBLIGATIONS.json. Rules R<n>, decisions D<n> and sections are
those of spec/. A statement that rests on a decision of the spec, or on a rule the spec marks as derived, says so and has
basis "derived" there. -/

open Sys2Proof Sys2Proof.Machine

/-! ## Decoder and encoder (spec/30_encoding.md) -/

/-- R101: the seven fields are the bit slices of the word, written as the rule's column "extraction" writes them. -/
def Obligations.FieldsAreBitSlices : Prop :=
  ∀ w : Word,
    (opcodeOf w).toNat = (w.toNat / 2 ^ 26) % 64 ∧ (rsOf w).toNat = (w.toNat / 2 ^ 21) % 32 ∧
      (rtOf w).toNat = (w.toNat / 2 ^ 16) % 32 ∧ (rdOf w).toNat = (w.toNat / 2 ^ 11) % 32 ∧
      (shamtOf w).toNat = (w.toNat / 2 ^ 6) % 32 ∧ (functOf w).toNat = w.toNat % 64 ∧
      (immOf w).toNat = w.toNat % 65536

/-- R108: the class by opcode and funct, that no other bit takes part, and the instruction of each class with the fields
of its form. -/
def Obligations.OpcodeMapDecidesClass : Prop :=
  (∀ w : Word,
    ((decodeForm w).cls = .add ↔ opcodeOf w = 0x00#6 ∧ functOf w = 0x20#6) ∧
      ((decodeForm w).cls = .sub ↔ opcodeOf w = 0x00#6 ∧ functOf w = 0x22#6) ∧
      ((decodeForm w).cls = .slt ↔ opcodeOf w = 0x00#6 ∧ functOf w = 0x2A#6) ∧
      ((decodeForm w).cls = .addi ↔ opcodeOf w = 0x08#6) ∧
      ((decodeForm w).cls = .beq ↔ opcodeOf w = 0x04#6) ∧
      ((decodeForm w).cls = .lw ↔ opcodeOf w = 0x23#6) ∧
      ((decodeForm w).cls = .sw ↔ opcodeOf w = 0x2B#6) ∧
      ((decodeForm w).cls = .unknown ↔
        (opcodeOf w = 0x00#6 ∧ functOf w ≠ 0x20#6 ∧ functOf w ≠ 0x22#6 ∧ functOf w ≠ 0x2A#6) ∨
          (opcodeOf w ≠ 0x00#6 ∧ opcodeOf w ≠ 0x08#6 ∧ opcodeOf w ≠ 0x04#6 ∧ opcodeOf w ≠ 0x23#6 ∧
            opcodeOf w ≠ 0x2B#6))) ∧
    (∀ w v : Word, opcodeOf w = opcodeOf v → (opcodeOf w = 0x00#6 → functOf w = functOf v) →
      (decodeForm w).cls = (decodeForm v).cls) ∧
    ∀ w : Word,
      ((decodeForm w).cls = .add → decode w = .add (rsOf w) (rtOf w) (rdOf w) (shamtOf w)) ∧
        ((decodeForm w).cls = .sub → decode w = .sub (rsOf w) (rtOf w) (rdOf w) (shamtOf w)) ∧
        ((decodeForm w).cls = .slt → decode w = .slt (rsOf w) (rtOf w) (rdOf w) (shamtOf w)) ∧
        ((decodeForm w).cls = .addi → decode w = .addi (rsOf w) (rtOf w) (immOf w)) ∧
        ((decodeForm w).cls = .beq → decode w = .beq (rsOf w) (rtOf w) (immOf w)) ∧
        ((decodeForm w).cls = .lw → decode w = .lw (rsOf w) (rtOf w) (immOf w)) ∧
        ((decodeForm w).cls = .sw → decode w = .sw (rsOf w) (rtOf w) (immOf w)) ∧
        ((decodeForm w).cls = .unknown → opcodeOf w = 0x00#6 →
          decode w = .unknownFunct (rsOf w) (rtOf w) (rdOf w) (shamtOf w) (functOf w)) ∧
        ((decodeForm w).cls = .unknown → opcodeOf w ≠ 0x00#6 →
          decode w = .unknownOpcode (opcodeOf w) (rsOf w) (rtOf w) (rdOf w) (shamtOf w) (functOf w))

/-- R119: on the canonical words of R116 the decoder gives back the class and the fields put in, for every field value;
and every word that is not UNKNOWN is the encoding of what it decodes to. -/
def Obligations.EncodingInvertsDecoding : Prop :=
  (∀ (rs rt rd : RegIdx) (imm : Imm),
    decode (BitVec.ofNat 32 (0x00000020 + 2 ^ 21 * rs.toNat + 2 ^ 16 * rt.toNat + 2 ^ 11 * rd.toNat)) =
        .add rs rt rd 0#5 ∧
      decode (BitVec.ofNat 32 (0x00000022 + 2 ^ 21 * rs.toNat + 2 ^ 16 * rt.toNat + 2 ^ 11 * rd.toNat)) =
        .sub rs rt rd 0#5 ∧
      decode (BitVec.ofNat 32 (0x0000002A + 2 ^ 21 * rs.toNat + 2 ^ 16 * rt.toNat + 2 ^ 11 * rd.toNat)) =
        .slt rs rt rd 0#5 ∧
      decode (BitVec.ofNat 32 (0x20000000 + 2 ^ 21 * rs.toNat + 2 ^ 16 * rt.toNat + imm.toNat)) = .addi rs rt imm ∧
      decode (BitVec.ofNat 32 (0x10000000 + 2 ^ 21 * rs.toNat + 2 ^ 16 * rt.toNat + imm.toNat)) = .beq rs rt imm ∧
      decode (BitVec.ofNat 32 (0x8C000000 + 2 ^ 21 * rs.toNat + 2 ^ 16 * rt.toNat + imm.toNat)) = .lw rs rt imm ∧
      decode (BitVec.ofNat 32 (0xAC000000 + 2 ^ 21 * rs.toNat + 2 ^ 16 * rt.toNat + imm.toNat)) = .sw rs rt imm) ∧
    ∀ w : Word, (decodeForm w).cls ≠ .unknown → encode (decode w) = w

/-- Every well-formed instruction, unsupported words included, with every field at every value: decoding its word gives it
back (R102, R103, R109; that the two unsupported rows carry all their bits is the model's shape of R106, log entry 5). -/
def Obligations.DecodeOfEncodeIsIdentity : Prop :=
  ∀ i : Instr, i.wellFormed = true → decode (encode i) = i

/-- The other direction, for all 2^32 words: the decoder answers a well-formed instruction (it is total, R105) from which
the word comes back (log entry 5 for the unsupported words). -/
def Obligations.EncodeOfDecodeIsIdentity : Prop :=
  ∀ w : Word, (decode w).wellFormed = true ∧ encode (decode w) = w

/-- The opcode table in its priority order agrees with the decoder on every word, and its seven defined rows are mutually
exclusive (R118, which the spec derives from R108). -/
def Obligations.FirstMatchingRowIsTheDecoded : Prop :=
  (∀ w : Word, tableMnemonic w = some (decode w).mnemonic) ∧
    ∀ (w : Word) (p q : OpcodeRow), p ∈ opcodeRows.take 7 → q ∈ opcodeRows.take 7 → p.covers w = true →
      q.covers w = true → p = q

/-- How many words each class has (R111, which the spec derives from R108). -/
def Obligations.ClassesHaveTheCountedWords : Prop :=
  Nat.card { w : Word // (decodeForm w).cls = .add } = 2 ^ 20 ∧
    Nat.card { w : Word // (decodeForm w).cls = .sub } = 2 ^ 20 ∧
    Nat.card { w : Word // (decodeForm w).cls = .slt } = 2 ^ 20 ∧
    Nat.card { w : Word // (decodeForm w).cls = .addi } = 2 ^ 26 ∧
    Nat.card { w : Word // (decodeForm w).cls = .beq } = 2 ^ 26 ∧
    Nat.card { w : Word // (decodeForm w).cls = .lw } = 2 ^ 26 ∧
    Nat.card { w : Word // (decodeForm w).cls = .sw } = 2 ^ 26 ∧
    Nat.card { w : Word // (decodeForm w).cls = .unknown } = 4023386112

/-- A sanity statement: one word per class, written out by hand from the encodings (spec/95_test_vectors.md section 2). -/
def Obligations.SampleWordsDecode : Prop :=
  decode 0x002218E0#32 = .add 1#5 2#5 3#5 3#5 ∧ decode 0x00221822#32 = .sub 1#5 2#5 3#5 0#5 ∧
    decode 0x0022182A#32 = .slt 1#5 2#5 3#5 0#5 ∧ decode 0x2001000A#32 = .addi 0#5 1#5 10#16 ∧
    decode 0x1000FFFC#32 = .beq 0#5 0#5 0xFFFC#16 ∧ decode 0x8FFFFFFF#32 = .lw 31#5 31#5 0xFFFF#16 ∧
    decode 0xAC220064#32 = .sw 1#5 2#5 100#16 ∧ decode 0x00221821#32 = .unknownFunct 1#5 2#5 3#5 0#5 0x21#6 ∧
    decode 0x24010001#32 = .unknownOpcode 0x09#6 0#5 1#5 0#5 0#5 0x01#6

/-! ## The step (spec/40_step.md) -/

/-- R131, line by line: nothing when Halted; otherwise the fetched word (0 where pc is absent) is decoded and executed,
the cycle is counted, the halt check is made at the new pc, and a trace event is emitted. -/
def Obligations.StepFollowsItsLines : Prop :=
  ∀ s : State,
    (s.halted = true → step s = .next s ∧ s.traceEvent = none) ∧
      (s.halted = false →
        s.traceEvent.isSome = true ∧
          ∀ t : State,
            exec (decode (((s.entryAt s.pc).map Entry.word).getD 0#32)) s = .next t →
            step s = .next { t with cycles := t.cycles + 1, halted := if t.memPresent t.pc then t.halted else true })

/-- A step of a Running engine runs the instruction its pc's word decodes to: `exec` of it, then the cycle count and the
halt check (R131, R133). -/
def Obligations.StepRunsTheInstructionAtPc : Prop :=
  ∀ (s t : State) (e : Entry) (i : Instr), s.halted = false → s.entryAt s.pc = some e → decode e.word = i →
    i.wellFormed = true → exec i s = .next t →
    step s = .next { t with cycles := t.cycles + 1, halted := t.halted || !t.memPresent t.pc }

/-- R136: a step while Halted changes no state at all and emits no trace event. -/
def Obligations.HaltedStepChangesNothing : Prop :=
  ∀ s : State, s.halted = true → step s = .next s ∧ s.traceEvent = none

/-- R134 and R135: an executed step is its instruction's effect, then `cycles + 1`, then `halted` exactly when Backing
Memory has no entry at the new pc, after that effect. -/
def Obligations.StepCountsAndProbesTheNewPc : Prop :=
  ∀ s t : State, s.halted = false → step s = .next t →
    ∃ u : State, exec (decode s.fetch) s = .next u ∧ t.regs = u.regs ∧ t.pc = u.pc ∧ t.mem = u.mem ∧
      t.cache = u.cache ∧ t.cycles = s.cycles + 1 ∧ (t.halted = true ↔ u.entryAt u.pc = none)

/-- R190: every instruction and every step answers a next state, on every state, and the same state when Halted. -/
def Obligations.EveryStepAnswersANextState : Prop :=
  (∀ (i : Instr) (s : State), ∃ t, exec i s = .next t) ∧
    ∀ s : State, ∃ t, step s = .next t ∧ (s.halted = true → t = s)

/-- R132: at an absent pc the step executes the word 0, which changes only pc, `cycles` and `halted` (no entry is created,
the cache is untouched); at a present pc the word there is fetched and executed whatever its kind and whatever the
instruction stores; and the fetch depends on memory and pc alone. -/
def Obligations.FetchDefaultsToWordZero : Prop :=
  (∀ s : State, s.halted = false → s.entryAt s.pc = none →
    ∃ t, step s = .next t ∧ t.regs = s.regs ∧ PcAdvanced s t ∧ t.mem = s.mem ∧ t.cache = s.cache ∧
      t.cycles = s.cycles + 1 ∧ (t.halted = true ↔ s.entryAt t.pc = none)) ∧
    (∀ (s u : State) (w : Word) (k : Kind), s.halted = false → s.entryAt s.pc = some { word := w, kind := k } →
      exec (decode w) s = .next u →
      s.fetch = w ∧ step s = .next { u with cycles := u.cycles + 1, halted := u.halted || !u.memPresent u.pc }) ∧
    ∀ s t : State, s.mem = t.mem → s.pc = t.pc → s.fetch = t.fetch

/-- R139 (derived by the spec): after any step the engine is Halted or its next fetch finds its address present, so only
the first step of a run can fetch an absent address; the states the host loads are before their first step. -/
def Obligations.OnlyAFirstFetchFindsNothing : Prop :=
  (∀ s t : State, step s = .next t → t.halted = true ∨ t.memPresent t.pc = true) ∧
    ∀ s : State, Loaded s → s.cycles = 0 ∧ s.halted = false ∧ s.pc = 0#8

/-- R137 (derived by the spec): no operation of the host but reset leaves Halted. -/
def Obligations.OnlyResetLeavesHalted : Prop :=
  ∀ (x : HostAction) (s t : State), (∀ cfg, x ≠ .reset cfg) → hostApply x s = .next t → s.halted = true →
    t.halted = true ∧ t.pc = s.pc ∧ t.cycles = s.cycles

/-- R141 (derived by the spec): a Running engine with all 256 addresses present never halts. -/
def Obligations.FullMemoryNeverHalts : Prop :=
  ∀ s t : State, s.halted = false → (∀ a : Addr, s.memPresent a = true) → step s = .next t →
    t.halted = false ∧ ∀ a : Addr, t.memPresent a = true

/-- The trace event of an executed step is pc, word and decoded form, and it reports an unsupported word exactly when the
instruction is one of the two unsupported rows (R142 and R183; the content is the spec's decision D11, log entry 6). -/
def Obligations.TraceReportsTheExecutedWord : Prop :=
  ∀ s : State, s.halted = false →
    s.traceEvent = some { pc := s.pc, word := s.fetch, decoded := decodeForm s.fetch } ∧
      ∀ e : TraceEvent, s.traceEvent = some e →
        (e.unsupported = true ↔
          (decode s.fetch).mnemonic = "UNKNOWN_FUNCT" ∨ (decode s.fetch).mnemonic = "UNKNOWN_OPCODE")

/-! ## Reset and the host (spec/10_state.md section 7, spec/60_exceptions.md part 3, spec/70_reset_and_hazards.md) -/

/-- R212: after reset pc is 0 and the engine is Running, whatever was there before; so the word then loaded at address 0
is the first one fetched. -/
def Obligations.ResetStartsAtAddressZero : Prop :=
  ∀ (cfg : CacheConfig) (s : State),
    ∃ t, hostApply (.reset cfg) s = .next t ∧ t.pc = 0#8 ∧ t.halted = false ∧
      ∀ (w : Word) (k : Kind), (hostLoad 0#8 w k t).fetch = w ∧ (hostLoad 0#8 w k t).halted = false

/-- R37 and R211: every piece of state after reset, for every geometry, whatever was there before. The value 0 of the
cache's three counters is the spec's decision D5 (log entry 14), and the ways' form is its decision D4 (log entry 4). -/
def Obligations.ResetSetsEveryPieceOfState : Prop :=
  ∀ (cfg : CacheConfig) (s : State),
    ∃ t, hostApply (.reset cfg) s = .next t ∧ (∀ r, t.readReg r = 0#32) ∧ t.pc = 0#8 ∧ t.halted = false ∧
      t.cycles = 0 ∧ (∀ a, t.entryAt a = none) ∧ t.cache.cfg = cfg ∧ CacheShape t.cache ∧ t.cache.Empty ∧
      t.cache.accessCounter = 0 ∧ t.cache.hits = 0 ∧ t.cache.misses = 0

/-- R201: `load` creates or replaces one entry and changes nothing else. -/
def Obligations.LoadWritesOneEntryOnly : Prop :=
  ∀ (a : Addr) (w : Word) (k : Kind) (s : State),
    ∃ t, hostApply (.load a w k) s = .next t ∧ t.entryAt a = some { word := w, kind := k } ∧ MemKeptBut a s t ∧
      t.regs = s.regs ∧ t.pc = s.pc ∧ t.halted = s.halted ∧ t.cycles = s.cycles ∧ t.cache = s.cache

/-- R204: the host's `cache_read` and `cache_write` are the cache controller's operations, and touch nothing but the
cache. -/
def Obligations.HostCacheCallsTouchTheCacheOnly : Prop :=
  ∀ (a : Addr) (v : Word) (s : State),
    (hostCacheRead a s).1 = (s.cache.read a).1 ∧
      hostApply (.cacheRead a) s = .next { s with cache := (s.cache.read a).2 } ∧
      hostApply (.cacheWrite a v) s = .next { s with cache := s.cache.write a v }

/-- R69: the hit rate lies in [0, 1], is 0 without an access, and is otherwise the exact fraction (the number format is
the spec's decision D8, log entry 15). -/
def Obligations.HitRateIsTheExactFraction : Prop :=
  ∀ s : State,
    0 ≤ hostHitRate s ∧ hostHitRate s ≤ 1 ∧ (s.cache.hits + s.cache.misses = 0 → hostHitRate s = 0) ∧
      hostHitRate s * ((s.cache.hits : ℚ) + (s.cache.misses : ℚ)) = (s.cache.hits : ℚ)

/-! ## Arithmetic (spec/41_alu.md) -/

/-- R150: ADD, with its encoding, its result, and what it leaves. -/
def Obligations.AddWritesTheWrappedSum : Prop :=
  (∀ w : Word, w &&& 0xFC00003F#32 = 0x00000020#32 ↔ decode w = .add (rsOf w) (rtOf w) (rdOf w) (shamtOf w)) ∧
    ∀ (rs rt rd : RegIdx) (shamt : Shamt) (s : State),
      ∃ t, exec (.add rs rt rd shamt) s = .next t ∧
        (t.readReg rd).toNat = ((s.readReg rs).toNat + (s.readReg rt).toNat) % 2 ^ 32 ∧ RegsKeptBut rd s t ∧
        PcAdvanced s t ∧ ControlKept s t ∧ MemKept s t ∧ t.cache = s.cache

/-- R151: SUB, with its encoding, its result, and what it leaves. -/
def Obligations.SubWritesTheWrappedDifference : Prop :=
  (∀ w : Word, w &&& 0xFC00003F#32 = 0x00000022#32 ↔ decode w = .sub (rsOf w) (rtOf w) (rdOf w) (shamtOf w)) ∧
    ∀ (rs rt rd : RegIdx) (shamt : Shamt) (s : State),
      ∃ t, exec (.sub rs rt rd shamt) s = .next t ∧
        (t.readReg rd).toNat = ((s.readReg rs).toNat + 2 ^ 32 - (s.readReg rt).toNat) % 2 ^ 32 ∧
        RegsKeptBut rd s t ∧ PcAdvanced s t ∧ ControlKept s t ∧ MemKept s t ∧ t.cache = s.cache

/-- R152: SLT, with its encoding, its result by the two's-complement integers, and what it leaves. -/
def Obligations.SltComparesSignedValues : Prop :=
  (∀ w : Word, w &&& 0xFC00003F#32 = 0x0000002A#32 ↔ decode w = .slt (rsOf w) (rtOf w) (rdOf w) (shamtOf w)) ∧
    ∀ (rs rt rd : RegIdx) (shamt : Shamt) (s : State),
      ∃ t, exec (.slt rs rt rd shamt) s = .next t ∧
        ((s.readReg rs).toInt < (s.readReg rt).toInt → t.readReg rd = 0x00000001#32) ∧
        (¬(s.readReg rs).toInt < (s.readReg rt).toInt → t.readReg rd = 0x00000000#32) ∧
        RegsKeptBut rd s t ∧ PcAdvanced s t ∧ ControlKept s t ∧ MemKept s t ∧ t.cache = s.cache

/-- R153: ADDI, with its encoding, its result, and what it leaves. -/
def Obligations.AddiAddsTheSignedImmediate : Prop :=
  (∀ w : Word, w &&& 0xFC000000#32 = 0x20000000#32 ↔ decode w = .addi (rsOf w) (rtOf w) (immOf w)) ∧
    ∀ (rs rt : RegIdx) (imm : Imm) (s : State),
      ∃ t, exec (.addi rs rt imm) s = .next t ∧
        ((t.readReg rt).toNat : Int) = (((s.readReg rs).toNat : Int) + imm.toInt) % 2 ^ 32 ∧
        t.readReg rt = s.readReg rs + imm.signExtend 32 ∧ RegsKeptBut rt s t ∧
        PcAdvanced s t ∧ ControlKept s t ∧ MemKept s t ∧ t.cache = s.cache

/-- R21: every register is written and read back, register 0 by every instruction that names it as its destination. -/
def Obligations.RegisterZeroIsWritable : Prop :=
  ∀ (rs rt : RegIdx) (shamt : Shamt) (imm : Imm) (s : State),
    (∀ (r : RegIdx) (v : Word), (s.writeReg r v).readReg r = v) ∧
      (∃ t, exec (.add rs rt 0#5 shamt) s = .next t ∧ t.readReg 0#5 = s.readReg rs + s.readReg rt) ∧
      (∃ t, exec (.sub rs rt 0#5 shamt) s = .next t ∧ t.readReg 0#5 = s.readReg rs - s.readReg rt) ∧
      (∃ t, exec (.slt rs rt 0#5 shamt) s = .next t ∧
        t.readReg 0#5 = if (s.readReg rs).slt (s.readReg rt) then 1#32 else 0#32) ∧
      (∃ t, exec (.addi rs 0#5 imm) s = .next t ∧ t.readReg 0#5 = s.readReg rs + imm.signExtend 32) ∧
      (∀ (j : Nat) (b : Block), s.cache.Holds (effectiveAddr (s.readReg rs) imm) j b →
        ∃ t, exec (.lw rs 0#5 imm) s = .next t ∧ t.readReg 0#5 = b.data) ∧
      (s.cache.Lacks (effectiveAddr (s.readReg rs) imm) →
        ∃ t, exec (.lw rs 0#5 imm) s = .next t ∧
          t.readReg 0#5 = ((s.entryAt (effectiveAddr (s.readReg rs) imm)).map Entry.word).getD 0#32)

/-! ## Control transfer (spec/42_branch.md) -/

/-- R160: BEQ, with its encoding: the target when equal, the successor when not, and nothing else changes. That offsets
above 255 are reduced to their low 8 bits is the spec's decision D12 (log entry 9). -/
def Obligations.BeqBranchesOnEquality : Prop :=
  (∀ w : Word, w &&& 0xFC000000#32 = 0x10000000#32 ↔ decode w = .beq (rsOf w) (rtOf w) (immOf w)) ∧
    ∀ (rs rt : RegIdx) (imm : Imm) (s : State),
      ∃ t, exec (.beq rs rt imm) s = .next t ∧
        (s.readReg rs = s.readReg rt → (t.pc.toNat : Int) = ((s.pc.toNat : Int) + 1 + imm.toInt) % 256) ∧
        (s.readReg rs ≠ s.readReg rt → PcAdvanced s t) ∧
        RegsKept s t ∧ ControlKept s t ∧ MemKept s t ∧ t.cache = s.cache

/-- R161 and R162 (the reading is the spec's decision D12, log entry 9): the two arithmetic paths of the taken branch are
one function, and the negative path's 16-bit sum is exact and lies in -32767 .. 255. -/
def Obligations.BothBranchPathsAgree : Prop :=
  ∀ (pc : Addr) (imm : Imm),
    branchTargetTwoPaths pc imm = branchTarget pc imm ∧
      (imm.toInt < 0 →
        (branchSum16 pc imm).toInt = (pc.toNat : Int) + 1 + imm.toInt ∧ -32767 ≤ (branchSum16 pc imm).toInt ∧
          (branchSum16 pc imm).toInt ≤ 255)

/-- R164 (derived by the spec): from any address one taken BEQ reaches any address, and a taken branch to an absent
address halts there at the end of the same step (the target's formula: decision D12, log entry 9). -/
def Obligations.BeqReachesEveryAddress : Prop :=
  (∀ p a : Addr, ∃ imm : Imm, branchTarget p imm = a) ∧
    ∀ (s : State) (rs rt : RegIdx) (imm : Imm), s.halted = false → decode s.fetch = .beq rs rt imm →
      s.readReg rs = s.readReg rt → s.memPresent (branchTarget s.pc imm) = false →
      ∃ t, step s = .next t ∧ t.pc = branchTarget s.pc imm ∧ t.halted = true ∧ t.mem = s.mem

/-- R25: the pc after any instruction, a taken BEQ apart, is `(pc + 1) mod 256`; after a taken BEQ it is `trunc_8(pc + 1 +
signed_16(imm))`; and no instruction reads the pc into a register (the target's formula: decision D12, log entry 9). -/
def Obligations.PcAdvancesOrBranches : Prop :=
  ∀ (i : Instr) (s t : State), exec i s = .next t →
    ((∀ rs rt imm, i = .beq rs rt imm → s.readReg rs ≠ s.readReg rt) → PcAdvanced s t) ∧
      (∀ rs rt imm, i = .beq rs rt imm → s.readReg rs = s.readReg rt →
        (t.pc.toNat : Int) = ((s.pc.toNat : Int) + 1 + imm.toInt) % 256) ∧
      ∀ (p : Addr) (u : State), exec i (s.setPc p) = .next u → RegsKept t u

/-! ## Loads and stores (spec/43_loadstore.md) -/

/-- R170: the effective address is the low 8 bits of base plus signed displacement, and only their low 8 bits matter. -/
def Obligations.EffectiveAddressIsLowByteOfSum : Prop :=
  ∀ (base : Word) (imm : Imm),
    ((effectiveAddr base imm).toNat : Int) = ((base.toNat : Int) + imm.toInt) % 256 ∧
      (effectiveAddr base imm).toNat = (base.toNat % 256 + imm.toNat % 256) % 256

/-- LW case H of R171: the cached word goes to rt, memory is not consulted, and the cache is left as `CacheRead` leaves
it. (R171 is quoted in part: its case M2 rests on decision D13.) -/
def Obligations.LoadHitTakesTheCachedWord : Prop :=
  (∀ w : Word, w &&& 0xFC000000#32 = 0x8C000000#32 ↔ decode w = .lw (rsOf w) (rtOf w) (immOf w)) ∧
    ∀ (rs rt : RegIdx) (imm : Imm) (s : State) (j : Nat) (b : Block),
      s.cache.Holds (effectiveAddr (s.readReg rs) imm) j b →
      ∃ t, exec (.lw rs rt imm) s = .next t ∧ t.readReg rt = b.data ∧ RegsKeptBut rt s t ∧ PcAdvanced s t ∧
        ControlKept s t ∧ MemKept s t ∧ t.cache = (s.cache.read (effectiveAddr (s.readReg rs) imm)).2

/-- LW case M1 of R171: a miss on a present address takes the word of Backing Memory and fills the cache with it. -/
def Obligations.LoadMissTakesTheMemoryWord : Prop :=
  ∀ (rs rt : RegIdx) (imm : Imm) (s : State) (e : Entry),
    s.cache.Lacks (effectiveAddr (s.readReg rs) imm) → s.entryAt (effectiveAddr (s.readReg rs) imm) = some e →
    ∃ t, exec (.lw rs rt imm) s = .next t ∧ t.readReg rt = e.word ∧ RegsKeptBut rt s t ∧ PcAdvanced s t ∧
      ControlKept s t ∧ MemKept s t ∧
      t.cache = (s.cache.read (effectiveAddr (s.readReg rs) imm)).2.write (effectiveAddr (s.readReg rs) imm) e.word

/-- LW case M2 of R171: a miss on an absent address creates it as the word 0, loads 0 and fills the cache with 0. The kind
`Data` of the new entry is the spec's decision D13 (log entry 10). -/
def Obligations.LoadMissCreatesAnAbsentAddress : Prop :=
  ∀ (rs rt : RegIdx) (imm : Imm) (s : State),
    s.cache.Lacks (effectiveAddr (s.readReg rs) imm) → s.entryAt (effectiveAddr (s.readReg rs) imm) = none →
    ∃ t, exec (.lw rs rt imm) s = .next t ∧ t.readReg rt = 0#32 ∧ RegsKeptBut rt s t ∧ PcAdvanced s t ∧
      ControlKept s t ∧ t.entryAt (effectiveAddr (s.readReg rs) imm) = some { word := 0#32, kind := .data } ∧
      MemKeptBut (effectiveAddr (s.readReg rs) imm) s t ∧
      t.cache = (s.cache.read (effectiveAddr (s.readReg rs) imm)).2.write (effectiveAddr (s.readReg rs) imm) 0#32

/-- R172: SW writes Backing Memory, tagged Data, and the cache, and nothing else (that it allocates in the cache is the
spec's decision D18, following spec/90_conflicts.md C1, log entry 11). -/
def Obligations.StoreWritesMemoryAndCache : Prop :=
  (∀ w : Word, w &&& 0xFC000000#32 = 0xAC000000#32 ↔ decode w = .sw (rsOf w) (rtOf w) (immOf w)) ∧
    ∀ (rs rt : RegIdx) (imm : Imm) (s : State),
      ∃ t, exec (.sw rs rt imm) s = .next t ∧
        t.entryAt (effectiveAddr (s.readReg rs) imm) = some { word := s.readReg rt, kind := .data } ∧
        MemKeptBut (effectiveAddr (s.readReg rs) imm) s t ∧ RegsKept s t ∧ PcAdvanced s t ∧ ControlKept s t ∧
        t.cache = s.cache.write (effectiveAddr (s.readReg rs) imm) (s.readReg rt)

/-- R173 and R74 (derived by the spec): what each instruction adds to the cache's three counters (that a SW counts as one
access of the cache follows C1 and decision D18, log entry 11). -/
def Obligations.CountersPerInstruction : Prop :=
  ∀ (i : Instr) (s t : State), exec i s = .next t →
    (∀ rs rt imm, i = .lw rs rt imm → s.cache.Lacks (effectiveAddr (s.readReg rs) imm) →
      t.cache.accessCounter = s.cache.accessCounter + 2 ∧ t.cache.hits = s.cache.hits ∧
        t.cache.misses = s.cache.misses + 1) ∧
      (∀ rs rt imm, i = .lw rs rt imm → ¬s.cache.Lacks (effectiveAddr (s.readReg rs) imm) →
        t.cache.accessCounter = s.cache.accessCounter + 1 ∧ t.cache.hits = s.cache.hits + 1 ∧
          t.cache.misses = s.cache.misses) ∧
      (∀ rs rt imm, i = .sw rs rt imm →
        t.cache.accessCounter = s.cache.accessCounter + 1 ∧ t.cache.hits = s.cache.hits ∧
          t.cache.misses = s.cache.misses) ∧
      ((∀ rs rt imm, i ≠ .lw rs rt imm ∧ i ≠ .sw rs rt imm) → t.cache = s.cache)

/-- R81 and R174 (derived by the spec): the word an SW stores is what any later fetch at its address reads, also where the
address is the SW's own, and the step still completes as the SW it fetched. -/
def Obligations.StoredWordIsFetchedNext : Prop :=
  ∀ (s t : State) (rs rt : RegIdx) (imm : Imm), s.halted = false → decode s.fetch = .sw rs rt imm →
    step s = .next t →
    (t.setPc (effectiveAddr (s.readReg rs) imm)).fetch = s.readReg rt ∧ PcAdvanced s t ∧ RegsKept s t

/-! ## Unsupported words (spec/44_unsupported.md) -/

/-- R180: an unsupported funct under opcode 0 has no effect but pc's advance; the frame counts its cycle and makes the
halt check as for any instruction. -/
def Obligations.UnknownFunctOnlyAdvancesPc : Prop :=
  (∀ w : Word, w &&& 0xFC000000#32 = 0x00000000#32 → functOf w ∉ [0x20#6, 0x22#6, 0x2A#6] →
    decode w = .unknownFunct (rsOf w) (rtOf w) (rdOf w) (shamtOf w) (functOf w)) ∧
    (∀ (rs rt rd : RegIdx) (shamt : Shamt) (funct : Op6) (s : State),
      ∃ t, exec (.unknownFunct rs rt rd shamt funct) s = .next t ∧ PcAdvanced s t ∧ RegsKept s t ∧
        ControlKept s t ∧ MemKept s t ∧ t.cache = s.cache) ∧
    ∀ (rs rt rd : RegIdx) (shamt : Shamt) (funct : Op6) (s t : State), s.halted = false →
      decode s.fetch = .unknownFunct rs rt rd shamt funct → step s = .next t →
      t.cycles = s.cycles + 1 ∧ (t.halted = true ↔ s.entryAt t.pc = none)

/-- R181: an unsupported opcode has no effect but pc's advance; cycle and halt check as in R180. -/
def Obligations.UnknownOpcodeOnlyAdvancesPc : Prop :=
  (∀ w : Word, opcodeOf w ∉ [0x00#6, 0x04#6, 0x08#6, 0x23#6, 0x2B#6] →
    decode w = .unknownOpcode (opcodeOf w) (rsOf w) (rtOf w) (rdOf w) (shamtOf w) (functOf w)) ∧
    (∀ (opcode : Op6) (rs rt rd : RegIdx) (shamt : Shamt) (funct : Op6) (s : State),
      ∃ t, exec (.unknownOpcode opcode rs rt rd shamt funct) s = .next t ∧ PcAdvanced s t ∧ RegsKept s t ∧
        ControlKept s t ∧ MemKept s t ∧ t.cache = s.cache) ∧
    ∀ (opcode : Op6) (rs rt rd : RegIdx) (shamt : Shamt) (funct : Op6) (s t : State), s.halted = false →
      decode s.fetch = .unknownOpcode opcode rs rt rd shamt funct → step s = .next t →
      t.cycles = s.cycles + 1 ∧ (t.halted = true ↔ s.entryAt t.pc = none)

/-! ## The cache controller (spec/20_memory.md part 3) -/

/-- R62: set and tag of an address, and the address from them. -/
def Obligations.AddressSplitsIntoSetAndTag : Prop :=
  ∀ (c : Cache) (a b : Addr),
    c.setIndex a = a.toNat % (c.cfg.numSets : Nat) ∧ (c.tagOf a).toNat = a.toNat / (c.cfg.numSets : Nat) ∧
      a.toNat = (c.tagOf a).toNat * (c.cfg.numSets : Nat) + c.setIndex a ∧
      (c.setIndex a = c.setIndex b → c.tagOf a = c.tagOf b → a = b)

/-- R66: `CacheRead` on a hit and on a miss, on every cache (that the lowest of several matching ways is taken is the
spec's decision D17, log entry 4). -/
def Obligations.CacheReadHitsOrMisses : Prop :=
  ∀ (c : Cache) (a : Addr),
    (∀ (j : Nat) (b : Block), c.Holds a j b →
      (c.read a).1 = (b.data, true) ∧
        (c.read a).2.way (a.toNat % (c.cfg.numSets : Nat)) j = some { b with lastUsed := c.accessCounter + 1 } ∧
        (∀ r i, ¬(r = a.toNat % (c.cfg.numSets : Nat) ∧ i = j) → (c.read a).2.way r i = c.way r i) ∧
        (c.read a).2.accessCounter = c.accessCounter + 1 ∧ (c.read a).2.hits = c.hits + 1 ∧
        (c.read a).2.misses = c.misses ∧ (c.read a).2.cfg = c.cfg) ∧
      (c.Lacks a →
        (c.read a).1 = (0#32, false) ∧
          (c.read a).2 = { c with accessCounter := c.accessCounter + 1, misses := c.misses + 1 })

/-- R67 with R68: the three cases of `CacheWrite`, on every cache of the right shape: (A) update in place, (B) fill of the
lowest invalid way, (C) replacement of the way with the smallest `last_used`, the lowest among equals. The ways' form and
the lowest invalid way are the spec's decision D4, the lowest matching way its decision D17 (log entry 4). -/
def Obligations.CacheWriteUpdatesFillsOrEvicts : Prop :=
  ∀ (c : Cache) (a : Addr) (v : Word), CacheShape c →
    (c.write a v).cfg = c.cfg ∧ (c.write a v).accessCounter = c.accessCounter + 1 ∧ (c.write a v).hits = c.hits ∧
      (c.write a v).misses = c.misses ∧
      (∀ (j : Nat) (b : Block), c.Holds a j b →
        ∀ r i, (c.write a v).way r i =
          if r = a.toNat % (c.cfg.numSets : Nat) ∧ i = j then
            some { tag := b.tag, data := v, lastUsed := c.accessCounter + 1 }
          else c.way r i) ∧
      (∀ j : Nat, c.Lacks a → j < (c.cfg.blocksPerSet : Nat) → c.way (a.toNat % (c.cfg.numSets : Nat)) j = none →
        (∀ i, i < j → (c.way (a.toNat % (c.cfg.numSets : Nat)) i).isSome) →
        ∀ r i, (c.write a v).way r i =
          if r = a.toNat % (c.cfg.numSets : Nat) ∧ i = j then
            some { tag := BitVec.ofNat 8 (a.toNat / (c.cfg.numSets : Nat)), data := v,
                   lastUsed := c.accessCounter + 1 }
          else c.way r i) ∧
      (∀ (j : Nat) (b : Block), c.Lacks a →
        (∀ i, i < (c.cfg.blocksPerSet : Nat) → (c.way (a.toNat % (c.cfg.numSets : Nat)) i).isSome) →
        c.way (a.toNat % (c.cfg.numSets : Nat)) j = some b →
        (∀ i d, c.way (a.toNat % (c.cfg.numSets : Nat)) i = some d → b.lastUsed ≤ d.lastUsed) →
        (∀ i d, i < j → c.way (a.toNat % (c.cfg.numSets : Nat)) i = some d → b.lastUsed < d.lastUsed) →
        ∀ r i, (c.write a v).way r i =
          if r = a.toNat % (c.cfg.numSets : Nat) ∧ i = j then
            some { tag := BitVec.ofNat 8 (a.toNat / (c.cfg.numSets : Nat)), data := v,
                   lastUsed := c.accessCounter + 1 }
          else c.way r i)

/-- R68: the victim of a set of blocks is the first way whose `last_used` is the smallest. -/
def Obligations.VictimIsTheFirstLeastRecentlyUsed : Prop :=
  ∀ bs : List Block, bs ≠ [] →
    ∃ b, bs[victim bs]? = some b ∧ (∀ (k : Nat) (d : Block), bs[k]? = some d → b.lastUsed ≤ d.lastUsed) ∧
      ∀ (k : Nat) (d : Block), k < victim bs → bs[k]? = some d → b.lastUsed < d.lastUsed

/-- R77 (a): a write followed immediately by a read of the same address hits and returns the data. -/
def Obligations.WriteThenReadHits : Prop :=
  ∀ (c : Cache) (a : Addr) (v : Word), CacheShape c → ((c.write a v).read a).1 = (v, true)

/-- R77 (b), from a set that holds no valid way: K + 1 writes to distinct addresses of the set evict exactly the address
written first: a read of it misses, and after that the other K hit with their data. -/
def Obligations.LruEvictsTheAddressWrittenFirst : Prop :=
  ∀ (c : Cache) (first : Addr × Word) (rest : List (Addr × Word)), CacheShape c →
    (∀ j, c.way (first.1.toNat % (c.cfg.numSets : Nat)) j = none) →
    rest.length = (c.cfg.blocksPerSet : Nat) → ((first :: rest).map Prod.fst).Nodup →
    (∀ p ∈ rest, p.1.toNat % (c.cfg.numSets : Nat) = first.1.toNat % (c.cfg.numSets : Nat)) →
    (((first :: rest).foldl (fun c p => c.write p.1 p.2) c).read first.1).1.2 = false ∧
      ∀ p ∈ rest,
        ((((first :: rest).foldl (fun c p => c.write p.1 p.2) c).read first.1).2.read p.1).1 = (p.2, true)

/-! ## Whole-machine rules -/

/-- R22 (derived by the spec): an instruction changes no register but the one it names as its destination. -/
def Obligations.OnlyTheDestinationRegisterChanges : Prop :=
  ∀ (i : Instr) (s t : State), exec i s = .next t →
    ∀ r, t.readReg r ≠ s.readReg r → destOf i = some r

/-- R138 and R54 (C4): Backing Memory changes only at the address an SW stores to, and at an absent address a LW that
misses creates; the entry a LW creates is (0, Data) (decision D13, log entry 10). -/
def Obligations.OnlyLoadsAndStoresChangeMemory : Prop :=
  ∀ (i : Instr) (s t : State) (a : Addr), exec i s = .next t → t.entryAt a ≠ s.entryAt a →
    (∃ rs rt imm, i = .sw rs rt imm ∧ a = effectiveAddr (s.readReg rs) imm) ∨
      ∃ rs rt imm, i = .lw rs rt imm ∧ a = effectiveAddr (s.readReg rs) imm ∧ s.cache.Lacks a ∧
        s.entryAt a = none ∧ t.entryAt a = some { word := 0#32, kind := .data }

/-- R50: no operation of the host but reset, and so no step, removes an entry. -/
def Obligations.NoEntryIsEverRemoved : Prop :=
  ∀ (x : HostAction) (s t : State) (a : Addr), (∀ cfg, x ≠ .reset cfg) → hostApply x s = .next t →
    s.memPresent a = true → t.memPresent a = true

/-- R51: no rule reads the kind tag: two states that differ in kind tags alone are led by a step to two such states. -/
def Obligations.KindTagsAreNeverRead : Prop :=
  ∀ s s' t t' : State, s.regs = s'.regs → s.pc = s'.pc → s.halted = s'.halted → s.cycles = s'.cycles →
    s.cache = s'.cache → (∀ a, (s.entryAt a).map Entry.word = (s'.entryAt a).map Entry.word) →
    step s = .next t → step s' = .next t' →
    t.regs = t'.regs ∧ t.pc = t'.pc ∧ t.halted = t'.halted ∧ t.cycles = t'.cycles ∧ t.cache = t'.cache ∧
      ∀ a, (t.entryAt a).map Entry.word = (t'.entryAt a).map Entry.word

/-- The canonical form makes equal memories equal data: two memories in it that read the same everywhere are the same list
(R33; the form is the model's, log entry 1). -/
def Obligations.EqualReadsMeanEqualMemories : Prop :=
  ∀ m n : Memory, m.wf → n.wf → (∀ a : Addr, m.entryAt a.toNat = n.entryAt a.toNat) → m = n

/-! ## Invariants (spec/20_memory.md part 4) -/

/-- The invariant holds after every reset (R37, R71 to R74; the counters' value 0 is decision D5, log entry 14). -/
def Obligations.ResetMeetsTheInvariant : Prop :=
  ∀ cfg : CacheConfig, Inv (State.resetWith cfg)

/-- R71 to R74 (derived by the spec): a step keeps the invariant: memory in canonical form; sets of the right shape,
filled from way 0; tags distinct within a set, `last_used` values distinct across the cache, positive and at most
`access_counter`; blocks of legal addresses; `hits + misses <= access_counter`. It keeps the geometry too (R9). The
memory's form is the model's (log entry 1), and the counters are unbounded by the spec's decision D3 (log entry 3). -/
def Obligations.StepKeepsTheInvariant : Prop :=
  ∀ s t : State, Inv s → step s = .next t → Inv t ∧ t.cache.cfg = s.cache.cfg

/-- The host's other operations keep it as well, from every state that meets it. -/
def Obligations.HostActionsKeepTheInvariant : Prop :=
  ∀ (x : HostAction) (s t : State), x ≠ .step → Inv s → hostApply x s = .next t → Inv t

/-- R75 (derived by the spec), as an invariant of the step: it keeps cache and Backing Memory coherent. -/
def Obligations.StepKeepsCoherence : Prop :=
  ∀ s t : State, Inv s → Coherent s → step s = .next t → Coherent t

/-- R75 and R139 (derived by the spec) over every run in which the host keeps its duties: reset with any geometry, any
loads, any number of steps. It is the corollary over runs of `StepKeepsTheInvariant`, `StepKeepsCoherence` and the first
clause of `OnlyAFirstFetchFindsNothing`. What the duties are is R209, the spec's decision D15 (log entry 12); the memory's
form in `Inv` is the model's (log entry 1). -/
def Obligations.DutifulRunsAreCoherent : Prop :=
  ∀ s : State, DutifulRun s → Inv s ∧ Coherent s ∧ FetchReady s

/-- The consequence of R75 (derived by the spec): in a coherent state a LW returns the word of Backing Memory at its
address, or 0 where it is absent, whether it hits or misses. -/
def Obligations.LoadReturnsTheMemoryWord : Prop :=
  ∀ (rs rt : RegIdx) (imm : Imm) (s t : State), Coherent s → exec (.lw rs rt imm) s = .next t →
    t.readReg rt = (s.memRead (effectiveAddr (s.readReg rs) imm)).getD 0#32

/-- R36 and R226 (derived by the spec): the cache, its contents, its counters and its geometry are invisible to a program:
two coherent states that agree on everything else are led by a step to two states that agree on everything else. -/
def Obligations.CacheIsInvisibleToPrograms : Prop :=
  ∀ s s' t t' : State, Coherent s → Coherent s' → s.view = s'.view → step s = .next t → step s' = .next t' →
    t.view = t'.view
end

