-- ==== Sys2Proof/Laws/Cache.lean ====
section
/-! SUPPORT. The cache controller: what a lookup answers, where a write goes, and what a way holds after one. -/

namespace Sys2Proof.Machine

/-! Lookup in a set. -/

/-- The lookup answers a way exactly when it is valid, has the tag, and no lower valid way has it (R63). -/
theorem findTag_eq_some {t : BitVec 8} {ws : List (Option Block)} {j : Nat} {b : Block} :
    findTag t ws = some (j, b) ↔
      ws.getD j none = some b ∧ b.tag = t ∧ ∀ i d, i < j → ws.getD i none = some d → d.tag ≠ t := by
  induction ws generalizing j with
  | nil => simp [findTag]
  | cons w ws ih =>
    cases j with
    | zero =>
      cases w with
      | none => simp [findTag]
      | some d =>
        by_cases h : d.tag = t
        · simp only [findTag, h, if_true, Option.some.injEq, Prod.mk.injEq, true_and, List.getD_cons_zero]
          constructor
          · rintro rfl
            exact ⟨rfl, h, by simp⟩
          · exact fun h' => h'.1
        · simp only [findTag, h, if_false, Option.map_eq_some_iff, Prod.mk.injEq, List.getD_cons_zero,
            Option.some.injEq]
          constructor
          · rintro ⟨p, -, hp, -⟩
            omega
          · rintro ⟨rfl, ht, -⟩
            exact absurd ht h
    | succ j =>
      have tail : (findTag t ws).map (fun p => (p.1 + 1, p.2)) = some (j + 1, b) ↔ findTag t ws = some (j, b) := by
        simp only [Option.map_eq_some_iff, Prod.mk.injEq, Nat.add_right_cancel_iff]
        constructor
        · rintro ⟨⟨x, y⟩, h, rfl, rfl⟩
          exact h
        · intro h
          exact ⟨(j, b), h, rfl, rfl⟩
      cases w with
      | none =>
        simp only [findTag, tail, ih, List.getD_cons_succ]
        refine and_congr_right fun _ => and_congr_right fun _ => ⟨fun h i d hi hd => ?_, fun h i d hi hd => ?_⟩
        · cases i with
          | zero => simp at hd
          | succ i => exact h i d (by omega) (by simpa using hd)
        · exact h (i + 1) d (by omega) (by simpa using hd)
      | some d =>
        by_cases h : d.tag = t
        · simp only [findTag, h, if_true, Option.some.injEq, Prod.mk.injEq, List.getD_cons_succ]
          constructor
          · rintro ⟨h', -⟩
            omega
          · rintro ⟨-, -, h'⟩
            exact absurd h (h' 0 d (by omega) (by simp))
        · simp only [findTag, h, if_false, tail, ih, List.getD_cons_succ]
          refine and_congr_right fun _ => and_congr_right fun _ => ⟨fun h' i e hi he => ?_, fun h' i e hi he => ?_⟩
          · cases i with
            | zero => simp only [List.getD_cons_zero, Option.some.injEq] at he; exact he ▸ h
            | succ i => exact h' i e (by omega) (by simpa using he)
          · exact h' (i + 1) e (by omega) (by simpa using he)

/-- The lookup answers nothing exactly when no valid way has the tag. -/
theorem findTag_eq_none {t : BitVec 8} {ws : List (Option Block)} :
    findTag t ws = none ↔ ∀ j b, ws.getD j none = some b → b.tag ≠ t := by
  induction ws with
  | nil => simp [findTag]
  | cons w ws ih =>
    have step : (∀ j b, (w :: ws).getD j none = some b → b.tag ≠ t) ↔
        (∀ b, w = some b → b.tag ≠ t) ∧ ∀ j b, ws.getD j none = some b → b.tag ≠ t := by
      refine ⟨fun h => ⟨fun b hb => h 0 b (by simpa using hb), fun j b hb => h (j + 1) b (by simpa using hb)⟩,
        fun h j b hb => ?_⟩
      cases j with
      | zero => exact h.1 b (by simpa using hb)
      | succ j => exact h.2 j b (by simpa using hb)
    rw [step]
    cases w with
    | none => simp [findTag, ih]
    | some d =>
      by_cases h : d.tag = t
      · simp [findTag, h]
      · simp [findTag, h, ih]

/-- The lowest invalid way: it is invalid, and every lower way is valid (R67 case B). -/
theorem firstFree_eq_some {ws : List (Option Block)} {j : Nat} (h : firstFree ws = some j) :
    j < ws.length ∧ ws.getD j none = none ∧ ∀ i, i < j → (ws.getD i none).isSome := by
  induction ws generalizing j with
  | nil => simp [firstFree] at h
  | cons w ws ih =>
    cases w with
    | none =>
      simp only [firstFree, Option.some.injEq] at h
      subst h
      simp
    | some d =>
      simp only [firstFree, Option.map_eq_some_iff] at h
      obtain ⟨k, hk, rfl⟩ := h
      obtain ⟨h1, h2, h3⟩ := ih hk
      refine ⟨by simpa using h1, by simpa using h2, fun i hi => ?_⟩
      cases i with
      | zero => simp
      | succ i => simpa using h3 i (by omega)

/-- No way is invalid exactly when the set is full, and then `filterMap id` keeps every way at its number. -/
theorem firstFree_eq_none {ws : List (Option Block)} (h : firstFree ws = none) :
    ws = (ws.filterMap id).map some := by
  induction ws with
  | nil => rfl
  | cons w ws ih =>
    cases w with
    | none => simp [firstFree] at h
    | some d =>
      simp only [firstFree, Option.map_eq_none_iff] at h
      simpa using ih h

theorem victimScan_lt {bs : List Block} {best used k : Nat} (h : best < k) :
    victimScan best used k bs < k + bs.length := by
  induction bs generalizing best used k with
  | nil => simpa [victimScan] using h
  | cons b bs ih =>
    simp only [victimScan, List.length_cons]
    split
    · exact lt_of_lt_of_eq (ih (by omega)) (by omega)
    · exact lt_of_lt_of_eq (ih (by omega)) (by omega)

theorem victim_lt {bs : List Block} (h : bs ≠ []) : victim bs < bs.length := by
  cases bs with
  | nil => exact absurd rfl h
  | cons b bs =>
    have := victimScan_lt (bs := bs) (best := 0) (used := b.lastUsed) (k := 1) (by omega)
    simpa [victim, Nat.add_comm] using this

theorem getD_lt_of_some {ws : List (Option Block)} {j : Nat} {b : Block} (h : ws.getD j none = some b) :
    j < ws.length := by
  by_contra hn
  simp [List.getD_eq_getElem?_getD, List.getElem?_eq_none (Nat.le_of_not_lt hn)] at h

/-- A write's way is a way of the set. -/
theorem targetWay_lt {t : BitVec 8} {ws : List (Option Block)} (h : ws ≠ []) : targetWay t ws < ws.length := by
  unfold targetWay
  split
  · next j b hf => exact getD_lt_of_some (findTag_eq_some.1 hf).1
  · split
    · next j hj => exact (firstFree_eq_some hj).1
    · next hj =>
      have hw := firstFree_eq_none hj
      have hne : ws.filterMap id ≠ [] := by
        intro e
        rw [e] at hw
        exact h hw
      have := victim_lt hne
      conv_rhs => rw [hw]
      simpa using this

/-! Tags and addresses. -/

theorem Cache.tagOf_toNat (c : Cache) (a : Addr) : (c.tagOf a).toNat = a.toNat / (c.cfg.numSets : Nat) := by
  unfold Cache.tagOf
  rw [BitVec.toNat_ofNat]
  exact Nat.mod_eq_of_lt (lt_of_le_of_lt (Nat.div_le_self _ _) a.isLt)

theorem Cache.setIndex_lt (c : Cache) (a : Addr) : c.setIndex a < c.cfg.numSets := Nat.mod_lt _ c.cfg.numSets.pos

/-- The address is recovered from tag and set (R62). -/
theorem Cache.tag_set_addr (c : Cache) (a : Addr) :
    (c.tagOf a).toNat * (c.cfg.numSets : Nat) + c.setIndex a = a.toNat := by
  rw [Cache.tagOf_toNat]
  exact Nat.div_add_mod' _ _

/-- Two addresses of one set with one tag are one address (R62). -/
theorem Cache.addr_eq_of_tag_set (c : Cache) {a b : Addr} (ht : c.tagOf a = c.tagOf b)
    (hs : c.setIndex a = c.setIndex b) : a = b := by
  apply BitVec.eq_of_toNat_eq
  rw [← c.tag_set_addr a, ← c.tag_set_addr b, ht, hs]

/-! A way replaced. -/

@[simp] theorem Cache.setWay_cfg (c : Cache) (s j : Nat) (b : Block) : (c.setWay s j b).cfg = c.cfg := rfl
@[simp] theorem Cache.setWay_accessCounter (c : Cache) (s j : Nat) (b : Block) :
    (c.setWay s j b).accessCounter = c.accessCounter := rfl
@[simp] theorem Cache.setWay_hits (c : Cache) (s j : Nat) (b : Block) : (c.setWay s j b).hits = c.hits := rfl
@[simp] theorem Cache.setWay_misses (c : Cache) (s j : Nat) (b : Block) : (c.setWay s j b).misses = c.misses := rfl
@[simp] theorem Cache.tick_cfg (c : Cache) : c.tick.cfg = c.cfg := rfl
@[simp] theorem Cache.tick_sets (c : Cache) : c.tick.sets = c.sets := rfl
@[simp] theorem Cache.tick_accessCounter (c : Cache) : c.tick.accessCounter = c.accessCounter + 1 := rfl
@[simp] theorem Cache.tick_hits (c : Cache) : c.tick.hits = c.hits := rfl
@[simp] theorem Cache.tick_misses (c : Cache) : c.tick.misses = c.misses := rfl
@[simp] theorem Cache.tick_ways (c : Cache) (s : Nat) : c.tick.ways s = c.ways s := rfl
@[simp] theorem Cache.tick_way (c : Cache) (s j : Nat) : c.tick.way s j = c.way s j := rfl

/-- Caches with the same sets have the same ways. -/
theorem Cache.way_congr {c d : Cache} (h : c.sets = d.sets) (s j : Nat) : c.way s j = d.way s j := by
  unfold Cache.way Cache.ways
  rw [h]

/-- What any way holds after way j of set s was replaced, where that way exists. -/
theorem Cache.way_setWay (c : Cache) {s j : Nat} (b : Block) (hs : s < c.sets.length) (hj : j < (c.ways s).length)
    (r i : Nat) : (c.setWay s j b).way r i = if r = s ∧ i = j then some b else c.way r i := by
  unfold Cache.way Cache.ways Cache.setWay
  simp only [List.getD_eq_getElem?_getD, List.getElem?_set]
  by_cases hr : s = r
  · subst hr
    simp only [hs, if_true, Option.getD_some, List.getElem?_set, true_and]
    by_cases hi : j = i
    · subst hi
      have : j < (c.sets[s]?.getD []).length := by
        simpa [Cache.ways, List.getD_eq_getElem?_getD] using hj
      simp only [Cache.ways, List.getD_eq_getElem?_getD, this, if_true, Option.getD_some]
    · have : ¬i = j := fun h => hi h.symm
      simp only [hi, this, if_false, Cache.ways, List.getD_eq_getElem?_getD]
  · have : ¬r = s := fun h => hr h.symm
    simp only [hr, this, if_false, false_and]

/-- The ways of a set of a well-shaped cache: K of them, at least one. -/
theorem CacheShape.ways_length {c : Cache} (h : CacheShape c) {s : Nat} (hs : s < c.cfg.numSets) :
    (c.ways s).length = c.cfg.blocksPerSet := by
  have hlt : s < c.sets.length := h.setCount ▸ hs
  unfold Cache.ways
  rw [List.getD_eq_getElem?_getD, List.getElem?_eq_getElem hlt, Option.getD_some]
  exact h.wayCount _ (List.getElem_mem hlt)

/-- The way a write goes to, in a well-shaped cache. -/
theorem CacheShape.targetWay_lt {c : Cache} (h : CacheShape c) (a : Addr) (t : BitVec 8) :
    targetWay t (c.ways (c.setIndex a)) < (c.ways (c.setIndex a)).length := by
  apply Sys2Proof.Machine.targetWay_lt
  intro e
  have := h.ways_length (c.setIndex_lt a)
  rw [e, List.length_nil] at this
  exact absurd this (Nat.ne_of_lt c.cfg.blocksPerSet.pos)

/-- `CacheRead` on a hit (R66). -/
theorem Cache.read_of_hit {c : Cache} {a : Addr} {j : Nat} {b : Block} (h : c.find a = some (j, b)) :
    c.read a =
      ((b.data, true),
        { c.tick.setWay (c.setIndex a) j { b with lastUsed := c.accessCounter + 1 } with hits := c.hits + 1 }) := by
  unfold Cache.read
  rw [h]
  rfl

/-- `CacheRead` on a miss (R66). -/
theorem Cache.read_of_miss {c : Cache} {a : Addr} (h : c.find a = none) :
    c.read a = ((0#32, false), { c.tick with misses := c.misses + 1 }) := by
  unfold Cache.read
  rw [h]

/-- The two cases of `CacheRead`, for a case split: a lookup either finds a way or does not. -/
theorem Cache.find_cases (c : Cache) (a : Addr) : (∃ j b, c.find a = some (j, b)) ∨ c.find a = none := by
  rcases c.find a with _ | ⟨j, b⟩
  · exact .inr rfl
  · exact .inl ⟨j, b, rfl⟩

/-- The counters after a `CacheRead` that hits. -/
theorem Cache.read_hit_counters {c : Cache} {a : Addr} {j : Nat} {b : Block} (h : c.find a = some (j, b)) :
    (c.read a).2.accessCounter = c.accessCounter + 1 ∧ (c.read a).2.hits = c.hits + 1 ∧
      (c.read a).2.misses = c.misses := by
  rw [Cache.read_of_hit h]
  exact ⟨rfl, rfl, rfl⟩

/-- The counters after a `CacheRead` that misses. -/
theorem Cache.read_miss_counters {c : Cache} {a : Addr} (h : c.find a = none) :
    (c.read a).2.accessCounter = c.accessCounter + 1 ∧ (c.read a).2.hits = c.hits ∧
      (c.read a).2.misses = c.misses + 1 := by
  rw [Cache.read_of_miss h]
  exact ⟨rfl, rfl, rfl⟩

/-- Neither operation changes the geometry (R9). -/
@[simp] theorem Cache.read_cfg (c : Cache) (a : Addr) : (c.read a).2.cfg = c.cfg := by
  rcases c.find_cases a with ⟨j, b, h⟩ | h
  · rw [Cache.read_of_hit h]
    rfl
  · rw [Cache.read_of_miss h]
    rfl

@[simp] theorem Cache.write_cfg (c : Cache) (a : Addr) (v : Word) : (c.write a v).cfg = c.cfg := rfl
@[simp] theorem Cache.write_hits (c : Cache) (a : Addr) (v : Word) : (c.write a v).hits = c.hits := rfl
@[simp] theorem Cache.write_misses (c : Cache) (a : Addr) (v : Word) : (c.write a v).misses = c.misses := rfl
@[simp] theorem Cache.write_accessCounter (c : Cache) (a : Addr) (v : Word) :
    (c.write a v).accessCounter = c.accessCounter + 1 := rfl

/-- What any way holds after `CacheWrite`, in a well-shaped cache. -/
theorem Cache.way_write {c : Cache} (h : CacheShape c) (a : Addr) (v : Word) (r i : Nat) :
    (c.write a v).way r i =
      if r = c.setIndex a ∧ i = targetWay (c.tagOf a) (c.ways (c.setIndex a)) then
        some { tag := c.tagOf a, data := v, lastUsed := c.accessCounter + 1 }
      else c.way r i := by
  unfold Cache.write
  rw [Cache.way_setWay]
  · rfl
  · exact h.setCount ▸ c.setIndex_lt a
  · exact h.targetWay_lt a _

/-- What any way holds after a `CacheRead` that hits way j. -/
theorem Cache.way_read_hit {c : Cache} {a : Addr} {j : Nat} {b : Block} (hf : c.find a = some (j, b)) (r i : Nat) :
    (c.read a).2.way r i =
      if r = c.setIndex a ∧ i = j then some { b with lastUsed := c.accessCounter + 1 } else c.way r i := by
  have hj : j < (c.ways (c.setIndex a)).length := getD_lt_of_some (findTag_eq_some.1 hf).1
  have hs : c.setIndex a < c.sets.length := by
    by_contra hn
    simp [Cache.ways, List.getD_eq_getElem?_getD, List.getElem?_eq_none (Nat.le_of_not_lt hn)] at hj
  rw [Cache.read_of_hit hf]
  exact c.tick.way_setWay _ hs hj r i

/-- A `CacheRead` that misses leaves every way (R66). -/
theorem Cache.way_read_miss {c : Cache} {a : Addr} (hf : c.find a = none) (r i : Nat) :
    (c.read a).2.way r i = c.way r i := by
  rw [Cache.read_of_miss hf]
  rfl

/-- A hit is a valid way of the address's set with its tag. -/
theorem Cache.find_way {c : Cache} {a : Addr} {j : Nat} {b : Block} (h : c.find a = some (j, b)) :
    c.way (c.setIndex a) j = some b ∧ b.tag = c.tagOf a :=
  ⟨(findTag_eq_some.1 h).1, (findTag_eq_some.1 h).2.1⟩

/-- A miss: no valid way of the address's set has its tag. -/
theorem Cache.find_none {c : Cache} {a : Addr} :
    c.find a = none ↔ ∀ j b, c.way (c.setIndex a) j = some b → b.tag ≠ c.tagOf a := findTag_eq_none

/-- The lookup is `Holds` and `Lacks` (R63). -/
theorem Cache.tagOf_eq_iff (c : Cache) (a : Addr) (t : BitVec 8) :
    t = c.tagOf a ↔ t.toNat = a.toNat / (c.cfg.numSets : Nat) := by
  rw [← c.tagOf_toNat]
  exact ⟨fun h => by rw [h], BitVec.eq_of_toNat_eq⟩

theorem Cache.find_eq_some {c : Cache} {a : Addr} {j : Nat} {b : Block} :
    c.find a = some (j, b) ↔ c.Holds a j b := by
  unfold Cache.find Cache.Holds
  rw [findTag_eq_some]
  simp only [Cache.tagOf_eq_iff, ne_eq]
  rfl

theorem Cache.find_eq_none {c : Cache} {a : Addr} : c.find a = none ↔ c.Lacks a := by
  unfold Cache.Lacks
  rw [Cache.find_none]
  simp only [Cache.tagOf_eq_iff, ne_eq]
  rfl

/-! The shape: every operation keeps it. -/

/-- Replacing a way keeps the shape (R34), where it is a way of an existing set. -/
theorem CacheShape.setWay {c : Cache} (h : CacheShape c) {s : Nat} (hs : s < c.cfg.numSets) (j : Nat) (b : Block) :
    CacheShape (c.setWay s j b) := by
  refine ⟨by simpa [Cache.setWay] using h.setCount, fun ws hws => ?_⟩
  rcases List.mem_or_eq_of_mem_set hws with hm | rfl
  · exact h.wayCount ws hm
  · simpa using h.ways_length hs

/-- `CacheWrite` keeps the shape. -/
theorem CacheShape.write {c : Cache} (h : CacheShape c) (a : Addr) (v : Word) : CacheShape (c.write a v) :=
  CacheShape.setWay (c := c.tick) ⟨h.setCount, h.wayCount⟩ (c.setIndex_lt a) _ _

/-- `CacheRead` keeps the shape. -/
theorem CacheShape.read {c : Cache} (h : CacheShape c) (a : Addr) : CacheShape (c.read a).2 := by
  rcases c.find_cases a with ⟨j, b, hf⟩ | hf
  · rw [Cache.read_of_hit hf]
    have hw := CacheShape.setWay (c := c.tick) ⟨h.setCount, h.wayCount⟩ (c.setIndex_lt a) j
      { b with lastUsed := c.accessCounter + 1 }
    exact ⟨hw.setCount, hw.wayCount⟩
  · rw [Cache.read_of_miss hf]
    exact ⟨h.setCount, h.wayCount⟩

/-- A fresh cache has the shape of its geometry (R34, R37). -/
theorem CacheShape.fresh (cfg : CacheConfig) : CacheShape (Cache.fresh cfg) := by
  refine ⟨by simp [Cache.fresh], fun ws hws => ?_⟩
  rw [List.eq_of_mem_replicate hws, List.length_replicate]
  rfl

/-- A valid way stands in one of the NUM_SETS sets. -/
theorem CacheShape.set_lt {c : Cache} (h : CacheShape c) {s j : Nat} {b : Block} (hb : c.way s j = some b) :
    s < c.cfg.numSets := by
  by_contra hn
  unfold Cache.way Cache.ways at hb
  rw [List.getD_eq_getElem?_getD (l := c.sets), List.getElem?_eq_none (by rw [h.setCount]; omega)] at hb
  simp at hb

/-- A fresh cache has no valid way (R37). -/
theorem Cache.fresh_empty (cfg : CacheConfig) : (Cache.fresh cfg).Empty := by
  intro s j
  unfold Cache.way Cache.ways Cache.fresh
  simp only [List.getD_eq_getElem?_getD, List.getElem?_replicate]
  split
  · simp only [Option.getD_some, List.getElem?_replicate]
    split <;> rfl
  · rfl

end Sys2Proof.Machine
end

