-- ==== Sys2Proof/Laws/Decode.lean ====
section
/-! SUPPORT. The fields of a word as numbers, and the fields of an encoded word. -/

namespace Sys2Proof

theorem slice_toNat (hi lo : Nat) (w : Word) :
    (slice hi lo w).toNat = w.toNat / 2 ^ lo % 2 ^ (hi - lo + 1) := by
  unfold slice
  rw [BitVec.toNat_ofNat, Nat.mod_mod]

theorem opcodeOf_toNat (w : Word) : (opcodeOf w).toNat = w.toNat / 67108864 % 64 := slice_toNat 31 26 w
theorem rsOf_toNat (w : Word) : (rsOf w).toNat = w.toNat / 2097152 % 32 := slice_toNat 25 21 w
theorem rtOf_toNat (w : Word) : (rtOf w).toNat = w.toNat / 65536 % 32 := slice_toNat 20 16 w
theorem rdOf_toNat (w : Word) : (rdOf w).toNat = w.toNat / 2048 % 32 := slice_toNat 15 11 w
theorem shamtOf_toNat (w : Word) : (shamtOf w).toNat = w.toNat / 64 % 32 := slice_toNat 10 6 w
theorem functOf_toNat (w : Word) : (functOf w).toNat = w.toNat / 1 % 64 := slice_toNat 5 0 w
theorem immOf_toNat (w : Word) : (immOf w).toNat = w.toNat / 1 % 65536 := slice_toNat 15 0 w

theorem rForm_toNat (o : Op6) (rs rt rd : RegIdx) (sh : Shamt) (f : Op6) :
    (rForm o rs rt rd sh f).toNat =
      67108864 * o.toNat + 2097152 * rs.toNat + 65536 * rt.toNat + 2048 * rd.toNat + 64 * sh.toNat + f.toNat := by
  unfold rForm
  have := o.isLt; have := rs.isLt; have := rt.isLt; have := rd.isLt; have := sh.isLt; have := f.isLt
  rw [BitVec.toNat_ofNat]
  omega

theorem iForm_toNat (o : Op6) (rs rt : RegIdx) (imm : Imm) :
    (iForm o rs rt imm).toNat = 67108864 * o.toNat + 2097152 * rs.toNat + 65536 * rt.toNat + imm.toNat := by
  unfold iForm
  have := o.isLt; have := rs.isLt; have := rt.isLt; have := imm.isLt
  rw [BitVec.toNat_ofNat]
  omega

/-- The fields of an R-form word are the fields put in (R102). -/
theorem rForm_fields (o : Op6) (rs rt rd : RegIdx) (sh : Shamt) (f : Op6) :
    opcodeOf (rForm o rs rt rd sh f) = o ∧ rsOf (rForm o rs rt rd sh f) = rs ∧ rtOf (rForm o rs rt rd sh f) = rt ∧
      rdOf (rForm o rs rt rd sh f) = rd ∧ shamtOf (rForm o rs rt rd sh f) = sh ∧ functOf (rForm o rs rt rd sh f) = f := by
  have := o.isLt; have := rs.isLt; have := rt.isLt; have := rd.isLt; have := sh.isLt; have := f.isLt
  refine ⟨?_, ?_, ?_, ?_, ?_, ?_⟩ <;> apply BitVec.eq_of_toNat_eq
  · rw [opcodeOf_toNat, rForm_toNat]; omega
  · rw [rsOf_toNat, rForm_toNat]; omega
  · rw [rtOf_toNat, rForm_toNat]; omega
  · rw [rdOf_toNat, rForm_toNat]; omega
  · rw [shamtOf_toNat, rForm_toNat]; omega
  · rw [functOf_toNat, rForm_toNat]; omega

/-- The fields of an I-form word are the fields put in (R103). -/
theorem iForm_fields (o : Op6) (rs rt : RegIdx) (imm : Imm) :
    opcodeOf (iForm o rs rt imm) = o ∧ rsOf (iForm o rs rt imm) = rs ∧ rtOf (iForm o rs rt imm) = rt ∧
      immOf (iForm o rs rt imm) = imm := by
  have := o.isLt; have := rs.isLt; have := rt.isLt; have := imm.isLt
  refine ⟨?_, ?_, ?_, ?_⟩ <;> apply BitVec.eq_of_toNat_eq
  · rw [opcodeOf_toNat, iForm_toNat]; omega
  · rw [rsOf_toNat, iForm_toNat]; omega
  · rw [rtOf_toNat, iForm_toNat]; omega
  · rw [immOf_toNat, iForm_toNat]; omega

/-- A word is the R-form of its own fields (R102). -/
theorem rForm_of_fields (w : Word) :
    rForm (opcodeOf w) (rsOf w) (rtOf w) (rdOf w) (shamtOf w) (functOf w) = w := by
  apply BitVec.eq_of_toNat_eq
  rw [rForm_toNat, opcodeOf_toNat, rsOf_toNat, rtOf_toNat, rdOf_toNat, shamtOf_toNat, functOf_toNat]
  have := w.isLt
  omega

/-- A word is the I-form of its own fields (R103). -/
theorem iForm_of_fields (w : Word) : iForm (opcodeOf w) (rsOf w) (rtOf w) (immOf w) = w := by
  apply BitVec.eq_of_toNat_eq
  rw [iForm_toNat, opcodeOf_toNat, rsOf_toNat, rtOf_toNat, immOf_toNat]
  have := w.isLt
  omega

/-- What a class says of opcode and funct: the opcode map read backwards (R108). -/
theorem classify_cases (o f : Op6) :
    (classify o f = .add ∧ o = 0x00#6 ∧ f = 0x20#6) ∨ (classify o f = .sub ∧ o = 0x00#6 ∧ f = 0x22#6) ∨
      (classify o f = .slt ∧ o = 0x00#6 ∧ f = 0x2A#6) ∨ (classify o f = .addi ∧ o = 0x08#6) ∨
      (classify o f = .beq ∧ o = 0x04#6) ∨ (classify o f = .lw ∧ o = 0x23#6) ∨ (classify o f = .sw ∧ o = 0x2B#6) ∨
      (classify o f = .unknown ∧ o = 0x00#6 ∧ definedFuncts.contains f = false) ∨
      (classify o f = .unknown ∧ o ≠ 0x00#6 ∧ definedOpcodes.contains o = false) := by
  unfold classify
  by_cases h0 : o = 0x00#6
  · subst h0
    by_cases h1 : f = 0x20#6
    · simp [h1]
    by_cases h2 : f = 0x22#6
    · simp [h2]
    by_cases h3 : f = 0x2A#6
    · simp [h3]
    simp [h1, h2, h3, definedFuncts]
  by_cases h1 : o = 0x08#6
  · simp [h1]
  by_cases h2 : o = 0x04#6
  · simp [h2]
  by_cases h3 : o = 0x23#6
  · simp [h3]
  by_cases h4 : o = 0x2B#6
  · simp [h4]
  simp [h0, h1, h2, h3, h4, definedOpcodes]

/-- The instruction of a word, by its opcode and funct: one of nine cases (R108, R133). -/
theorem decode_cases (w : Word) :
    (decode w = .add (rsOf w) (rtOf w) (rdOf w) (shamtOf w) ∧ opcodeOf w = 0x00#6 ∧ functOf w = 0x20#6) ∨
      (decode w = .sub (rsOf w) (rtOf w) (rdOf w) (shamtOf w) ∧ opcodeOf w = 0x00#6 ∧ functOf w = 0x22#6) ∨
      (decode w = .slt (rsOf w) (rtOf w) (rdOf w) (shamtOf w) ∧ opcodeOf w = 0x00#6 ∧ functOf w = 0x2A#6) ∨
      (decode w = .addi (rsOf w) (rtOf w) (immOf w) ∧ opcodeOf w = 0x08#6) ∨
      (decode w = .beq (rsOf w) (rtOf w) (immOf w) ∧ opcodeOf w = 0x04#6) ∨
      (decode w = .lw (rsOf w) (rtOf w) (immOf w) ∧ opcodeOf w = 0x23#6) ∨
      (decode w = .sw (rsOf w) (rtOf w) (immOf w) ∧ opcodeOf w = 0x2B#6) ∨
      (decode w = .unknownFunct (rsOf w) (rtOf w) (rdOf w) (shamtOf w) (functOf w) ∧ opcodeOf w = 0x00#6 ∧
        definedFuncts.contains (functOf w) = false) ∨
      (decode w = .unknownOpcode (opcodeOf w) (rsOf w) (rtOf w) (rdOf w) (shamtOf w) (functOf w) ∧
        opcodeOf w ≠ 0x00#6 ∧ definedOpcodes.contains (opcodeOf w) = false) := by
  unfold decode decodeForm DecodedForm.toInstr
  rcases classify_cases (opcodeOf w) (functOf w) with
    ⟨h, h'⟩ | ⟨h, h'⟩ | ⟨h, h'⟩ | ⟨h, h'⟩ | ⟨h, h'⟩ | ⟨h, h'⟩ | ⟨h, h'⟩ | ⟨h, h'⟩ | ⟨h, h'⟩ <;> simp only [h]
  · exact .inl ⟨trivial, h'⟩
  · exact .inr (.inl ⟨trivial, h'⟩)
  · exact .inr (.inr (.inl ⟨trivial, h'⟩))
  · exact .inr (.inr (.inr (.inl ⟨trivial, h'⟩)))
  · exact .inr (.inr (.inr (.inr (.inl ⟨trivial, h'⟩))))
  · exact .inr (.inr (.inr (.inr (.inr (.inl ⟨trivial, h'⟩)))))
  · exact .inr (.inr (.inr (.inr (.inr (.inr (.inl ⟨trivial, h'⟩))))))
  · exact .inr (.inr (.inr (.inr (.inr (.inr (.inr (.inl ⟨if_pos h'.1, h'⟩)))))))
  · exact .inr (.inr (.inr (.inr (.inr (.inr (.inr (.inr ⟨if_neg h'.1, h'⟩)))))))

/-! Masks (R118). -/

theorem slice_and (hi lo : Nat) (w m : Word) : slice hi lo (w &&& m) = slice hi lo w &&& slice hi lo m := by
  have h : ∀ x : Word, slice hi lo x = x.extractLsb' lo (hi - lo + 1) := fun x => by
    apply BitVec.eq_of_toNat_eq
    rw [slice_toNat, BitVec.extractLsb'_toNat, Nat.shiftRight_eq_div_pow]
  rw [h, h, h, BitVec.extractLsb'_and]

/-- Two words with the same six R-form fields are the same word (R102). -/
theorem word_eq_iff_fields (w v : Word) :
    w = v ↔ opcodeOf w = opcodeOf v ∧ rsOf w = rsOf v ∧ rtOf w = rtOf v ∧ rdOf w = rdOf v ∧ shamtOf w = shamtOf v ∧
      functOf w = functOf v := by
  refine ⟨fun h => by subst h; simp, fun ⟨h1, h2, h3, h4, h5, h6⟩ => ?_⟩
  rw [← rForm_of_fields w, ← rForm_of_fields v, h1, h2, h3, h4, h5, h6]

/-- The R-form mask selects opcode and funct (R118): a match word that is zero elsewhere is met by exactly its words. -/
theorem mask_opcode_funct (w : Word) (o f : Op6) :
    w &&& 0xFC00003F#32 = rForm o 0#5 0#5 0#5 0#5 f ↔ opcodeOf w = o ∧ functOf w = f := by
  obtain ⟨h1, h2, h3, h4, h5, h6⟩ := rForm_fields o 0#5 0#5 0#5 0#5 f
  rw [word_eq_iff_fields, h1, h2, h3, h4, h5, h6]
  have m1 : opcodeOf 0xFC00003F#32 = BitVec.allOnes 6 := by decide
  have m2 : rsOf 0xFC00003F#32 = 0#5 := by decide
  have m3 : rtOf 0xFC00003F#32 = 0#5 := by decide
  have m4 : rdOf 0xFC00003F#32 = 0#5 := by decide
  have m5 : shamtOf 0xFC00003F#32 = 0#5 := by decide
  have m6 : functOf 0xFC00003F#32 = BitVec.allOnes 6 := by decide
  have e1 : opcodeOf (w &&& 0xFC00003F#32) = opcodeOf w := by
    rw [opcodeOf, slice_and, ← opcodeOf, ← opcodeOf, m1, BitVec.and_allOnes]
  have e2 : rsOf (w &&& 0xFC00003F#32) = 0#5 := by rw [rsOf, slice_and, ← rsOf, ← rsOf, m2, BitVec.and_zero]
  have e3 : rtOf (w &&& 0xFC00003F#32) = 0#5 := by rw [rtOf, slice_and, ← rtOf, ← rtOf, m3, BitVec.and_zero]
  have e4 : rdOf (w &&& 0xFC00003F#32) = 0#5 := by rw [rdOf, slice_and, ← rdOf, ← rdOf, m4, BitVec.and_zero]
  have e5 : shamtOf (w &&& 0xFC00003F#32) = 0#5 := by
    rw [shamtOf, slice_and, ← shamtOf, ← shamtOf, m5, BitVec.and_zero]
  have e6 : functOf (w &&& 0xFC00003F#32) = functOf w := by
    rw [functOf, slice_and, ← functOf, ← functOf, m6, BitVec.and_allOnes]
  rw [e1, e2, e3, e4, e5, e6]
  tauto

/-- The I-form mask selects the opcode alone (R118). -/
theorem mask_opcode (w : Word) (o : Op6) :
    w &&& 0xFC000000#32 = rForm o 0#5 0#5 0#5 0#5 0#6 ↔ opcodeOf w = o := by
  obtain ⟨h1, h2, h3, h4, h5, h6⟩ := rForm_fields o 0#5 0#5 0#5 0#5 0#6
  rw [word_eq_iff_fields, h1, h2, h3, h4, h5, h6]
  have m1 : opcodeOf 0xFC000000#32 = BitVec.allOnes 6 := by decide
  have m2 : rsOf 0xFC000000#32 = 0#5 := by decide
  have m3 : rtOf 0xFC000000#32 = 0#5 := by decide
  have m4 : rdOf 0xFC000000#32 = 0#5 := by decide
  have m5 : shamtOf 0xFC000000#32 = 0#5 := by decide
  have m6 : functOf 0xFC000000#32 = 0#6 := by decide
  have e1 : opcodeOf (w &&& 0xFC000000#32) = opcodeOf w := by
    rw [opcodeOf, slice_and, ← opcodeOf, ← opcodeOf, m1, BitVec.and_allOnes]
  have e2 : rsOf (w &&& 0xFC000000#32) = 0#5 := by rw [rsOf, slice_and, ← rsOf, ← rsOf, m2, BitVec.and_zero]
  have e3 : rtOf (w &&& 0xFC000000#32) = 0#5 := by rw [rtOf, slice_and, ← rtOf, ← rtOf, m3, BitVec.and_zero]
  have e4 : rdOf (w &&& 0xFC000000#32) = 0#5 := by rw [rdOf, slice_and, ← rdOf, ← rdOf, m4, BitVec.and_zero]
  have e5 : shamtOf (w &&& 0xFC000000#32) = 0#5 := by
    rw [shamtOf, slice_and, ← shamtOf, ← shamtOf, m5, BitVec.and_zero]
  have e6 : functOf (w &&& 0xFC000000#32) = 0#6 := by
    rw [functOf, slice_and, ← functOf, ← functOf, m6, BitVec.and_zero]
  rw [e1, e2, e3, e4, e5, e6]
  tauto

/-! What matching each of the table's rows says of a word (R118). -/

theorem mask_add (w : Word) : w &&& 0xFC00003F#32 = 0x00000020#32 ↔ opcodeOf w = 0x00#6 ∧ functOf w = 0x20#6 :=
  mask_opcode_funct w 0x00#6 0x20#6
theorem mask_sub (w : Word) : w &&& 0xFC00003F#32 = 0x00000022#32 ↔ opcodeOf w = 0x00#6 ∧ functOf w = 0x22#6 :=
  mask_opcode_funct w 0x00#6 0x22#6
theorem mask_slt (w : Word) : w &&& 0xFC00003F#32 = 0x0000002A#32 ↔ opcodeOf w = 0x00#6 ∧ functOf w = 0x2A#6 :=
  mask_opcode_funct w 0x00#6 0x2A#6
theorem mask_addi (w : Word) : w &&& 0xFC000000#32 = 0x20000000#32 ↔ opcodeOf w = 0x08#6 := mask_opcode w 0x08#6
theorem mask_beq (w : Word) : w &&& 0xFC000000#32 = 0x10000000#32 ↔ opcodeOf w = 0x04#6 := mask_opcode w 0x04#6
theorem mask_lw (w : Word) : w &&& 0xFC000000#32 = 0x8C000000#32 ↔ opcodeOf w = 0x23#6 := mask_opcode w 0x23#6
theorem mask_sw (w : Word) : w &&& 0xFC000000#32 = 0xAC000000#32 ↔ opcodeOf w = 0x2B#6 := mask_opcode w 0x2B#6
theorem mask_unknownFunct (w : Word) : w &&& 0xFC000000#32 = 0x00000000#32 ↔ opcodeOf w = 0x00#6 :=
  mask_opcode w 0x00#6

/-- The table's answer for a word, by its opcode and funct alone. -/
theorem tableMnemonic_eq (w : Word) :
    tableMnemonic w = some
      (if opcodeOf w = 0x00#6 ∧ functOf w = 0x20#6 then "ADD"
      else if opcodeOf w = 0x00#6 ∧ functOf w = 0x22#6 then "SUB"
      else if opcodeOf w = 0x00#6 ∧ functOf w = 0x2A#6 then "SLT"
      else if opcodeOf w = 0x08#6 then "ADDI"
      else if opcodeOf w = 0x04#6 then "BEQ"
      else if opcodeOf w = 0x23#6 then "LW"
      else if opcodeOf w = 0x2B#6 then "SW"
      else if opcodeOf w = 0x00#6 then "UNKNOWN_FUNCT"
      else "UNKNOWN_OPCODE") := by
  unfold tableMnemonic opcodeRows OpcodeRow.covers
  simp only [List.find?_cons, beq_eq_decide, mask_add, mask_sub, mask_slt, mask_addi, mask_beq, mask_lw, mask_sw,
    mask_unknownFunct]
  split_ifs <;> simp_all

end Sys2Proof
end

