-- ==== Sys2Proof/Laws/State.lean ====
section
/-! SUPPORT. The fields of an updated state: one lemma per field and update, so that no proof unfolds a record update;
and the reads of registers and memory after each update. -/

namespace Sys2Proof.Machine

@[simp] theorem State.writeReg_regs (s : State) (i : RegIdx) (v : Word) : (s.writeReg i v).regs = s.regs.set i.toNat v i.isLt := rfl
@[simp] theorem State.writeReg_pc (s : State) (i : RegIdx) (v : Word) : (s.writeReg i v).pc = s.pc := rfl
@[simp] theorem State.writeReg_halted (s : State) (i : RegIdx) (v : Word) : (s.writeReg i v).halted = s.halted := rfl
@[simp] theorem State.writeReg_cycles (s : State) (i : RegIdx) (v : Word) : (s.writeReg i v).cycles = s.cycles := rfl
@[simp] theorem State.writeReg_mem (s : State) (i : RegIdx) (v : Word) : (s.writeReg i v).mem = s.mem := rfl
@[simp] theorem State.writeReg_cache (s : State) (i : RegIdx) (v : Word) : (s.writeReg i v).cache = s.cache := rfl

@[simp] theorem State.setPc_regs (s : State) (t : Addr) : (s.setPc t).regs = s.regs := rfl
@[simp] theorem State.setPc_pc (s : State) (t : Addr) : (s.setPc t).pc = t := rfl
@[simp] theorem State.setPc_halted (s : State) (t : Addr) : (s.setPc t).halted = s.halted := rfl
@[simp] theorem State.setPc_cycles (s : State) (t : Addr) : (s.setPc t).cycles = s.cycles := rfl
@[simp] theorem State.setPc_mem (s : State) (t : Addr) : (s.setPc t).mem = s.mem := rfl
@[simp] theorem State.setPc_cache (s : State) (t : Addr) : (s.setPc t).cache = s.cache := rfl

@[simp] theorem State.advancePc_regs (s : State) : (s.advancePc).regs = s.regs := rfl
@[simp] theorem State.advancePc_pc (s : State) : (s.advancePc).pc = nextPc s.pc := rfl
@[simp] theorem State.advancePc_halted (s : State) : (s.advancePc).halted = s.halted := rfl
@[simp] theorem State.advancePc_cycles (s : State) : (s.advancePc).cycles = s.cycles := rfl
@[simp] theorem State.advancePc_mem (s : State) : (s.advancePc).mem = s.mem := rfl
@[simp] theorem State.advancePc_cache (s : State) : (s.advancePc).cache = s.cache := rfl

@[simp] theorem State.memWrite_regs (s : State) (a : Addr) (v : Word) (k : Kind) : (s.memWrite a v k).regs = s.regs := rfl
@[simp] theorem State.memWrite_pc (s : State) (a : Addr) (v : Word) (k : Kind) : (s.memWrite a v k).pc = s.pc := rfl
@[simp] theorem State.memWrite_halted (s : State) (a : Addr) (v : Word) (k : Kind) : (s.memWrite a v k).halted = s.halted := rfl
@[simp] theorem State.memWrite_cycles (s : State) (a : Addr) (v : Word) (k : Kind) : (s.memWrite a v k).cycles = s.cycles := rfl
@[simp] theorem State.memWrite_mem (s : State) (a : Addr) (v : Word) (k : Kind) : (s.memWrite a v k).mem = s.mem.put a.toNat { word := v, kind := k } := rfl
@[simp] theorem State.memWrite_cache (s : State) (a : Addr) (v : Word) (k : Kind) : (s.memWrite a v k).cache = s.cache := rfl

@[simp] theorem State.withCache_regs (s : State) (c : Cache) : (s.withCache c).regs = s.regs := rfl
@[simp] theorem State.withCache_pc (s : State) (c : Cache) : (s.withCache c).pc = s.pc := rfl
@[simp] theorem State.withCache_halted (s : State) (c : Cache) : (s.withCache c).halted = s.halted := rfl
@[simp] theorem State.withCache_cycles (s : State) (c : Cache) : (s.withCache c).cycles = s.cycles := rfl
@[simp] theorem State.withCache_mem (s : State) (c : Cache) : (s.withCache c).mem = s.mem := rfl
@[simp] theorem State.withCache_cache (s : State) (c : Cache) : (s.withCache c).cache = c := rfl

@[simp] theorem State.cacheWrite_regs (s : State) (a : Addr) (v : Word) : (s.cacheWrite a v).regs = s.regs := rfl
@[simp] theorem State.cacheWrite_pc (s : State) (a : Addr) (v : Word) : (s.cacheWrite a v).pc = s.pc := rfl
@[simp] theorem State.cacheWrite_halted (s : State) (a : Addr) (v : Word) : (s.cacheWrite a v).halted = s.halted := rfl
@[simp] theorem State.cacheWrite_cycles (s : State) (a : Addr) (v : Word) : (s.cacheWrite a v).cycles = s.cycles := rfl
@[simp] theorem State.cacheWrite_mem (s : State) (a : Addr) (v : Word) : (s.cacheWrite a v).mem = s.mem := rfl
@[simp] theorem State.cacheWrite_cache (s : State) (a : Addr) (v : Word) : (s.cacheWrite a v).cache = s.cache.write a v := rfl

@[simp] theorem State.finishStep_regs (s : State) : (s.finishStep).regs = s.regs := rfl
@[simp] theorem State.finishStep_pc (s : State) : (s.finishStep).pc = s.pc := rfl
@[simp] theorem State.finishStep_halted (s : State) : (s.finishStep).halted = (s.halted || !s.memPresent s.pc) := rfl
@[simp] theorem State.finishStep_cycles (s : State) : (s.finishStep).cycles = s.cycles + 1 := rfl
@[simp] theorem State.finishStep_mem (s : State) : (s.finishStep).mem = s.mem := rfl
@[simp] theorem State.finishStep_cache (s : State) : (s.finishStep).cache = s.cache := rfl

@[simp] theorem State.placeAtPc_regs (s : State) (w : Word) : (s.placeAtPc w).regs = s.regs := rfl
@[simp] theorem State.placeAtPc_pc (s : State) (w : Word) : (s.placeAtPc w).pc = s.pc := rfl
@[simp] theorem State.placeAtPc_halted (s : State) (w : Word) : (s.placeAtPc w).halted = false := rfl
@[simp] theorem State.placeAtPc_cycles (s : State) (w : Word) : (s.placeAtPc w).cycles = s.cycles := rfl
@[simp] theorem State.placeAtPc_mem (s : State) (w : Word) : (s.placeAtPc w).mem = s.mem.put s.pc.toNat { word := w, kind := .instruction } := rfl
@[simp] theorem State.placeAtPc_cache (s : State) (w : Word) : (s.placeAtPc w).cache = s.cache := rfl

/-! `CacheRead` on a state changes the cache alone. -/

@[simp] theorem State.cacheRead_fst (s : State) (a : Addr) : (s.cacheRead a).1 = (s.cache.read a).1 := rfl
@[simp] theorem State.cacheRead_snd (s : State) (a : Addr) :
    (s.cacheRead a).2 = s.withCache (s.cache.read a).2 := rfl

/-! Registers. -/

theorem State.readReg_writeReg (s : State) (i j : RegIdx) (v : Word) :
    (s.writeReg i v).readReg j = if i = j then v else s.readReg j := by
  unfold State.readReg
  simp only [State.writeReg_regs, Vector.getElem_set]
  by_cases h : i = j
  · simp [h]
  · have h' : i.toNat ≠ j.toNat := fun e => h (BitVec.eq_of_toNat_eq e)
    simp [h, h']

@[simp] theorem State.readReg_writeReg_same (s : State) (i : RegIdx) (v : Word) :
    (s.writeReg i v).readReg i = v := by
  simp [State.readReg_writeReg]

theorem State.readReg_writeReg_other (s : State) {i j : RegIdx} (v : Word) (h : i ≠ j) :
    (s.writeReg i v).readReg j = s.readReg j := by
  simp [State.readReg_writeReg, h]

@[simp] theorem State.readReg_setPc (s : State) (t : Addr) (r : RegIdx) : (s.setPc t).readReg r = s.readReg r := rfl
@[simp] theorem State.readReg_advancePc (s : State) (r : RegIdx) : (s.advancePc).readReg r = s.readReg r := rfl
@[simp] theorem State.readReg_memWrite (s : State) (a : Addr) (v : Word) (k : Kind) (r : RegIdx) : (s.memWrite a v k).readReg r = s.readReg r := rfl
@[simp] theorem State.readReg_withCache (s : State) (c : Cache) (r : RegIdx) : (s.withCache c).readReg r = s.readReg r := rfl
@[simp] theorem State.readReg_cacheWrite (s : State) (a : Addr) (v : Word) (r : RegIdx) : (s.cacheWrite a v).readReg r = s.readReg r := rfl
@[simp] theorem State.readReg_finishStep (s : State) (r : RegIdx) : (s.finishStep).readReg r = s.readReg r := rfl
@[simp] theorem State.readReg_placeAtPc (s : State) (w : Word) (r : RegIdx) : (s.placeAtPc w).readReg r = s.readReg r := rfl

/-! Backing Memory. -/

@[simp] theorem State.entryAt_writeReg (s : State) (i : RegIdx) (v : Word) (r : Addr) : (s.writeReg i v).entryAt r = s.entryAt r := rfl
@[simp] theorem State.memPresent_writeReg (s : State) (i : RegIdx) (v : Word) (r : Addr) : (s.writeReg i v).memPresent r = s.memPresent r := rfl
@[simp] theorem State.memRead_writeReg (s : State) (i : RegIdx) (v : Word) (r : Addr) : (s.writeReg i v).memRead r = s.memRead r := rfl
@[simp] theorem State.entryAt_setPc (s : State) (t : Addr) (r : Addr) : (s.setPc t).entryAt r = s.entryAt r := rfl
@[simp] theorem State.memPresent_setPc (s : State) (t : Addr) (r : Addr) : (s.setPc t).memPresent r = s.memPresent r := rfl
@[simp] theorem State.memRead_setPc (s : State) (t : Addr) (r : Addr) : (s.setPc t).memRead r = s.memRead r := rfl
@[simp] theorem State.entryAt_advancePc (s : State) (r : Addr) : (s.advancePc).entryAt r = s.entryAt r := rfl
@[simp] theorem State.memPresent_advancePc (s : State) (r : Addr) : (s.advancePc).memPresent r = s.memPresent r := rfl
@[simp] theorem State.memRead_advancePc (s : State) (r : Addr) : (s.advancePc).memRead r = s.memRead r := rfl
@[simp] theorem State.entryAt_withCache (s : State) (c : Cache) (r : Addr) : (s.withCache c).entryAt r = s.entryAt r := rfl
@[simp] theorem State.memPresent_withCache (s : State) (c : Cache) (r : Addr) : (s.withCache c).memPresent r = s.memPresent r := rfl
@[simp] theorem State.memRead_withCache (s : State) (c : Cache) (r : Addr) : (s.withCache c).memRead r = s.memRead r := rfl
@[simp] theorem State.entryAt_cacheWrite (s : State) (a : Addr) (v : Word) (r : Addr) : (s.cacheWrite a v).entryAt r = s.entryAt r := rfl
@[simp] theorem State.memPresent_cacheWrite (s : State) (a : Addr) (v : Word) (r : Addr) : (s.cacheWrite a v).memPresent r = s.memPresent r := rfl
@[simp] theorem State.memRead_cacheWrite (s : State) (a : Addr) (v : Word) (r : Addr) : (s.cacheWrite a v).memRead r = s.memRead r := rfl
@[simp] theorem State.entryAt_finishStep (s : State) (r : Addr) : (s.finishStep).entryAt r = s.entryAt r := rfl
@[simp] theorem State.memPresent_finishStep (s : State) (r : Addr) : (s.finishStep).memPresent r = s.memPresent r := rfl
@[simp] theorem State.memRead_finishStep (s : State) (r : Addr) : (s.finishStep).memRead r = s.memRead r := rfl

end Sys2Proof.Machine
end

