-- ==== Sys2Proof/Laws/Memory.lean ====
section
/-! SUPPORT. Backing Memory: a read after a write, and the canonical form that every write keeps. -/

namespace Sys2Proof.Machine

@[simp] theorem Memory.entryAt_nil (a : Nat) : Memory.entryAt [] a = none := rfl

theorem Memory.entryAt_cons (b : Nat) (e : Entry) (m : Memory) (a : Nat) :
    Memory.entryAt ((b, e) :: m) a = if a = b then some e else Memory.entryAt m a := rfl

/-- What is read at any address after a write, in any list of cells, ordered or not. -/
theorem Memory.entryAt_put (m : Memory) (a : Nat) (e : Entry) (b : Nat) :
    (m.put a e).entryAt b = if b = a then some e else m.entryAt b := by
  induction m with
  | nil => simp [Memory.put, Memory.entryAt_cons]
  | cons p m ih =>
    obtain ⟨c, f⟩ := p
    by_cases h1 : a < c
    · simp [Memory.put, h1, Memory.entryAt_cons]
    · by_cases h2 : a = c
      · subst h2
        by_cases hb : b = a <;> simp [Memory.put, Memory.entryAt_cons, hb]
      · by_cases hb : b = c
        · have hca : c ≠ a := fun h => h2 h.symm
          simp [Memory.put, Memory.entryAt_cons, h1, h2, hb, hca]
        · simp [Memory.put, Memory.entryAt_cons, h1, h2, hb, ih]

/-- The addresses a write leaves listed: the old ones and its own. -/
theorem Memory.mem_put {m : Memory} {a : Nat} {e : Entry} {p : Nat × Entry} (h : p ∈ m.put a e) :
    p = (a, e) ∨ p ∈ m := by
  induction m with
  | nil => simpa [Memory.put] using h
  | cons q m ih =>
    obtain ⟨c, f⟩ := q
    by_cases h1 : a < c
    · simpa [Memory.put, h1] using h
    · by_cases h2 : a = c
      · subst h2
        simp only [Memory.put, lt_irrefl, if_false, if_true, List.mem_cons] at h
        exact h.imp id (List.mem_cons_of_mem _)
      · simp only [Memory.put, h1, h2, if_false, List.mem_cons] at h
        rcases h with h | h
        · exact .inr (by simp [h])
        · exact (ih h).imp id (List.mem_cons_of_mem _)

/-- A write keeps the canonical form. -/
theorem Memory.put_wf {m : Memory} {a : Nat} (e : Entry) (hm : m.wf) (ha : a < Config.memWords) :
    (m.put a e).wf := by
  refine ⟨?_, fun p hp => ?_⟩
  · have hs := hm.1
    clear hm
    induction m with
    | nil => simp [Memory.put]
    | cons q m ih =>
      obtain ⟨c, f⟩ := q
      rw [List.pairwise_cons] at hs
      by_cases h1 : a < c
      · simp only [Memory.put, h1, if_true, List.pairwise_cons]
        refine ⟨fun p hp => ?_, hs⟩
        rcases List.mem_cons.1 hp with rfl | hp
        · exact h1
        · exact h1.trans (hs.1 p hp)
      · by_cases h2 : a = c
        · subst h2
          simp only [Memory.put, lt_irrefl, if_false, if_true, List.pairwise_cons]
          exact hs
        · simp only [Memory.put, h1, h2, if_false, List.pairwise_cons]
          refine ⟨fun p hp => ?_, ih hs.2⟩
          rcases Memory.mem_put hp with rfl | hp
          · simp only
            omega
          · exact hs.1 p hp
  · rcases Memory.mem_put hp with rfl | hp
    · exact ha
    · exact hm.2 p hp

/-- An address is below 256. -/
theorem addr_lt (a : Addr) : a.toNat < Config.memWords := a.isLt

theorem addr_toNat_inj {a b : Addr} : a.toNat = b.toNat ↔ a = b :=
  ⟨BitVec.eq_of_toNat_eq, fun h => by rw [h]⟩

theorem State.entryAt_memWrite (s : State) (a : Addr) (v : Word) (k : Kind) (b : Addr) :
    (s.memWrite a v k).entryAt b = if b = a then some { word := v, kind := k } else s.entryAt b := by
  unfold State.entryAt
  rw [State.memWrite_mem, Memory.entryAt_put]
  simp only [addr_toNat_inj]

@[simp] theorem State.entryAt_memWrite_same (s : State) (a : Addr) (v : Word) (k : Kind) :
    (s.memWrite a v k).entryAt a = some { word := v, kind := k } := by
  simp [State.entryAt_memWrite]

theorem State.entryAt_memWrite_other (s : State) {a b : Addr} (v : Word) (k : Kind) (h : b ≠ a) :
    (s.memWrite a v k).entryAt b = s.entryAt b := by
  simp [State.entryAt_memWrite, h]

/-- A write never removes an entry (R50). -/
theorem State.memPresent_memWrite (s : State) (a : Addr) (v : Word) (k : Kind) (b : Addr) :
    (s.memWrite a v k).memPresent b = (decide (b = a) || s.memPresent b) := by
  unfold State.memPresent
  rw [State.entryAt_memWrite]
  by_cases h : b = a <;> simp [h]

theorem State.memWrite_wf {s : State} (a : Addr) (v : Word) (k : Kind) (h : s.mem.wf) :
    (s.memWrite a v k).mem.wf := Memory.put_wf _ h (addr_lt a)

/-- The memory of reset is in canonical form. -/
theorem State.resetWith_mem_wf (cfg : CacheConfig) : (State.resetWith cfg).mem.wf :=
  ⟨List.Pairwise.nil, fun _ hp => absurd hp List.not_mem_nil⟩

theorem State.memRead_eq_none {s : State} {a : Addr} : s.memRead a = none ↔ s.entryAt a = none := by
  simp [State.memRead]

theorem State.memPresent_iff {s : State} {a : Addr} : s.memPresent a = true ↔ ∃ e, s.entryAt a = some e := by
  simp [State.memPresent, Option.isSome_iff_exists]

theorem State.memRead_of_entry {s : State} {a : Addr} {e : Entry} (h : s.entryAt a = some e) :
    s.memRead a = some e.word := by
  simp [State.memRead, h]

end Sys2Proof.Machine
end

