-- ==== Sys2Proof/Laws/Operands.lean ====
section
/-! SUPPORT. The arithmetic of Machine/Operands.lean in terms of bit-vector arithmetic. -/

namespace Sys2Proof.Machine

/-- `signed_N` is the two's-complement reading (R13). -/
theorem signed_eq_toInt {n : Nat} (hn : 0 < n) (v : BitVec n) : signed n v = v.toInt := by
  obtain ⟨m, rfl⟩ : ∃ m, n = m + 1 := ⟨n - 1, by omega⟩
  unfold signed
  rw [BitVec.toInt_eq_toNat_cond, Nat.add_sub_cancel]
  have h2 : 2 ^ (m + 1) = 2 * 2 ^ m := by rw [Nat.pow_succ]; omega
  have : v.toNat < 2 ^ m ↔ 2 * v.toNat < 2 ^ (m + 1) := by omega
  simp only [this, Nat.cast_pow, Nat.cast_ofNat]

theorem trunc_toNat (n : Nat) (i : Int) : ((trunc n i).toNat : Int) = i % 2 ^ n := by
  unfold trunc
  rw [BitVec.toNat_ofInt, Int.toNat_of_nonneg (Int.emod_nonneg _ (by positivity))]
  norm_num

/-- `trunc_N` depends on the integer modulo 2^N only. -/
theorem trunc_congr {n : Nat} {i j : Int} (h : i % 2 ^ n = j % 2 ^ n) : trunc n i = trunc n j := by
  apply BitVec.eq_of_toNat_eq
  have := (trunc_toNat n i).trans (h.trans (trunc_toNat n j).symm)
  exact_mod_cast this

theorem add32_eq (a b : Word) : add32 a b = a + b := by
  apply BitVec.eq_of_toNat_eq
  have h := trunc_toNat 32 ((a.toNat : Int) + b.toNat)
  rw [BitVec.toNat_add]
  unfold add32
  omega

theorem sub32_eq (a b : Word) : sub32 a b = a - b := by
  apply BitVec.eq_of_toNat_eq
  have h := trunc_toNat 32 ((a.toNat : Int) - b.toNat)
  rw [BitVec.toNat_sub]
  unfold sub32
  have := a.isLt
  have := b.isLt
  omega

theorem nextPc_eq (pc : Addr) : nextPc pc = pc + 1#8 := by
  apply BitVec.eq_of_toNat_eq
  have h := trunc_toNat 8 ((pc.toNat : Int) + 1)
  rw [BitVec.toNat_add]
  unfold nextPc
  have : (1#8).toNat = 1 := rfl
  omega

theorem nextPc_toNat (pc : Addr) : (nextPc pc).toNat = (pc.toNat + 1) % 256 := by
  have h := trunc_toNat 8 ((pc.toNat : Int) + 1)
  unfold nextPc
  omega

end Sys2Proof.Machine
end

