-- ==== Sys2Proof/Laws/Exec.lean ====
section
/-! SUPPORT. What each meaning answers, once, and what a step can do: the lemmas that proofs about instructions cite
instead of unfolding `exec` and `step`. -/

namespace Sys2Proof.Machine

theorem exec_add (rs rt rd : RegIdx) (sh : Shamt) (s : State) :
    exec (.add rs rt rd sh) s = .next (s.writeReg rd (add32 (s.readReg rs) (s.readReg rt))).advancePc := rfl

theorem exec_sub (rs rt rd : RegIdx) (sh : Shamt) (s : State) :
    exec (.sub rs rt rd sh) s = .next (s.writeReg rd (sub32 (s.readReg rs) (s.readReg rt))).advancePc := rfl

theorem exec_slt (rs rt rd : RegIdx) (sh : Shamt) (s : State) :
    exec (.slt rs rt rd sh) s = .next (s.writeReg rd (setLess (s.readReg rs) (s.readReg rt))).advancePc := rfl

theorem exec_addi (rs rt : RegIdx) (imm : Imm) (s : State) :
    exec (.addi rs rt imm) s = .next (s.writeReg rt (addImm32 (s.readReg rs) imm)).advancePc := rfl

theorem exec_unknownFunct (rs rt rd : RegIdx) (sh : Shamt) (f : Op6) (s : State) :
    exec (.unknownFunct rs rt rd sh f) s = .next s.advancePc := rfl

theorem exec_unknownOpcode (o : Op6) (rs rt rd : RegIdx) (sh : Shamt) (f : Op6) (s : State) :
    exec (.unknownOpcode o rs rt rd sh f) s = .next s.advancePc := rfl

theorem exec_sw (rs rt : RegIdx) (imm : Imm) (s : State) :
    exec (.sw rs rt imm) s =
      .next (((s.memWrite (effectiveAddr (s.readReg rs) imm) (s.readReg rt) .data).cacheWrite
        (effectiveAddr (s.readReg rs) imm) (s.readReg rt)).advancePc) := rfl

theorem exec_beq (rs rt : RegIdx) (imm : Imm) (s : State) :
    exec (.beq rs rt imm) s =
      .next (s.setPc (if s.readReg rs = s.readReg rt then branchTarget s.pc imm else nextPc s.pc)) := by
  show execBeq rs rt imm s = _
  unfold execBeq sameWord
  by_cases h : s.readReg rs = s.readReg rt
  · simp [h]
  · simp [h, State.advancePc]

/-- A LW that hits (R171 case H). -/
theorem exec_lw_hit {rs rt : RegIdx} {imm : Imm} {s : State} {j : Nat} {b : Block}
    (h : s.cache.find (effectiveAddr (s.readReg rs) imm) = some (j, b)) :
    exec (.lw rs rt imm) s =
      .next (((s.withCache (s.cache.read (effectiveAddr (s.readReg rs) imm)).2).writeReg rt b.data).advancePc) := by
  show execLw rs rt imm s = _
  unfold execLw State.cacheRead
  rw [Cache.read_of_hit h]

/-- A LW that misses (R171 cases M1 and M2). -/
theorem exec_lw_miss {rs rt : RegIdx} {imm : Imm} {s : State}
    (h : s.cache.find (effectiveAddr (s.readReg rs) imm) = none) :
    exec (.lw rs rt imm) s =
      .next (((s.withCache (s.cache.read (effectiveAddr (s.readReg rs) imm)).2).loadMiss rt
        (effectiveAddr (s.readReg rs) imm)).advancePc) := by
  show execLw rs rt imm s = _
  unfold execLw State.cacheRead
  rw [Cache.read_of_miss h]

/-- Case M1: the address is present. -/
theorem State.loadMiss_present {s : State} {rt : RegIdx} {a : Addr} {e : Entry} (h : s.entryAt a = some e) :
    s.loadMiss rt a = (s.writeReg rt e.word).cacheWrite a e.word := by
  unfold State.loadMiss
  rw [State.memRead_of_entry h]

/-- Case M2: the address is absent and is created as (0, Data). -/
theorem State.loadMiss_absent {s : State} {rt : RegIdx} {a : Addr} (h : s.entryAt a = none) :
    s.loadMiss rt a = ((s.memWrite a 0#32 .data).writeReg rt 0#32).cacheWrite a 0#32 := by
  unfold State.loadMiss
  rw [State.memRead_eq_none.2 h]

/-- A LW that misses on a present address (R171 case M1). -/
theorem exec_lw_present {rs rt : RegIdx} {imm : Imm} {s : State} {e : Entry}
    (h : s.cache.find (effectiveAddr (s.readReg rs) imm) = none)
    (he : s.entryAt (effectiveAddr (s.readReg rs) imm) = some e) :
    exec (.lw rs rt imm) s =
      .next ((((s.withCache (s.cache.read (effectiveAddr (s.readReg rs) imm)).2).writeReg rt e.word).cacheWrite
        (effectiveAddr (s.readReg rs) imm) e.word).advancePc) := by
  rw [exec_lw_miss h, State.loadMiss_present (by simpa using he)]

/-- A LW that misses on an absent address (R171 case M2). -/
theorem exec_lw_absent {rs rt : RegIdx} {imm : Imm} {s : State}
    (h : s.cache.find (effectiveAddr (s.readReg rs) imm) = none)
    (he : s.entryAt (effectiveAddr (s.readReg rs) imm) = none) :
    exec (.lw rs rt imm) s =
      .next (((((s.withCache (s.cache.read (effectiveAddr (s.readReg rs) imm)).2).memWrite
        (effectiveAddr (s.readReg rs) imm) 0#32 .data).writeReg rt 0#32).cacheWrite
          (effectiveAddr (s.readReg rs) imm) 0#32).advancePc) := by
  rw [exec_lw_miss h, State.loadMiss_absent (by simpa using he)]

/-- Everything a LW can do: H, M1 or M2 (R171); the three equations are the three lemmas above. -/
theorem exec_lw_cases (rs rt : RegIdx) (imm : Imm) (s : State) :
    (∃ j b, s.cache.find (effectiveAddr (s.readReg rs) imm) = some (j, b) ∧
        exec (.lw rs rt imm) s =
          .next (((s.withCache (s.cache.read (effectiveAddr (s.readReg rs) imm)).2).writeReg rt b.data).advancePc)) ∨
      (∃ e, s.cache.find (effectiveAddr (s.readReg rs) imm) = none ∧
        s.entryAt (effectiveAddr (s.readReg rs) imm) = some e ∧
        exec (.lw rs rt imm) s =
          .next ((((s.withCache (s.cache.read (effectiveAddr (s.readReg rs) imm)).2).writeReg rt e.word).cacheWrite
            (effectiveAddr (s.readReg rs) imm) e.word).advancePc)) ∨
      (s.cache.find (effectiveAddr (s.readReg rs) imm) = none ∧
        s.entryAt (effectiveAddr (s.readReg rs) imm) = none ∧
        exec (.lw rs rt imm) s =
          .next (((((s.withCache (s.cache.read (effectiveAddr (s.readReg rs) imm)).2).memWrite
            (effectiveAddr (s.readReg rs) imm) 0#32 .data).writeReg rt 0#32).cacheWrite
              (effectiveAddr (s.readReg rs) imm) 0#32).advancePc)) := by
  rcases hf : s.cache.find (effectiveAddr (s.readReg rs) imm) with _ | ⟨j, b⟩
  · rcases he : s.entryAt (effectiveAddr (s.readReg rs) imm) with _ | e
    · exact .inr (.inr ⟨rfl, rfl, exec_lw_absent hf he⟩)
    · exact .inr (.inl ⟨e, rfl, rfl, exec_lw_present hf he⟩)
  · exact .inl ⟨j, b, rfl, exec_lw_hit hf⟩

/-! The step. -/

theorem step_halted {s : State} (h : s.halted = true) : step s = .next s := by
  unfold step
  rw [if_pos h]

theorem step_running {s t : State} (h : s.halted = false) (ht : exec (decode s.fetch) s = .next t) :
    step s = .next t.finishStep := by
  unfold step
  rw [if_neg (by simp [h]), ht]

/-- Everything a step that answers a next state can have done. -/
theorem step_next_cases {s t : State} (h : step s = .next t) :
    (s.halted = true ∧ t = s) ∨ (s.halted = false ∧ ∃ u, exec (decode s.fetch) s = .next u ∧ t = u.finishStep) := by
  by_cases hs : s.halted = true
  · rw [step_halted hs] at h
    exact .inl ⟨hs, (Host.Outcome.next.inj h).symm⟩
  · refine .inr ⟨by simpa using hs, ?_⟩
    unfold step at h
    rw [if_neg hs] at h
    split at h
    · next u hu => exact ⟨u, hu, (Host.Outcome.next.inj h).symm⟩
    · cases h
    · cases h

/-- The fetch after `withFetchWord` reads that word (R132), and the engine is Running. -/
theorem State.withFetchWord_fetch (s : State) (nbits w : Nat) :
    (s.withFetchWord nbits w).fetch = BitVec.ofNat 32 w ∧ (s.withFetchWord nbits w).halted = false := by
  refine ⟨?_, rfl⟩
  have h : (s.withFetchWord nbits w).entryAt s.pc = some { word := BitVec.ofNat 32 w, kind := .instruction } := by
    show (s.mem.put s.pc.toNat _).entryAt s.pc.toNat = _
    rw [Memory.entryAt_put, if_pos rfl]
  unfold State.fetch
  show ((s.withFetchWord nbits w).memRead s.pc).getD 0#32 = _
  rw [State.memRead_of_entry h]
  rfl

end Sys2Proof.Machine
end

