-- ==== Sys2Proof/Laws/PerInstr.lean ====
section
/-! SUPPORT. The family `OwnRow`, one lemma per constructor of Instr: the word the encoder writes for a well-formed
instruction is one whose first matching row of the opcode table is the instruction's own (spec/30_encoding.md R118). -/

namespace Sys2Proof.Laws

/-- The first matching row of an R-form word, by opcode and funct. -/
theorem tableMnemonic_rForm (o : Op6) (rs rt rd : RegIdx) (sh : Shamt) (f : Op6) :
    tableMnemonic (rForm o rs rt rd sh f) = some
      (if o = 0x00#6 ∧ f = 0x20#6 then "ADD" else if o = 0x00#6 ∧ f = 0x22#6 then "SUB"
      else if o = 0x00#6 ∧ f = 0x2A#6 then "SLT" else if o = 0x08#6 then "ADDI" else if o = 0x04#6 then "BEQ"
      else if o = 0x23#6 then "LW" else if o = 0x2B#6 then "SW" else if o = 0x00#6 then "UNKNOWN_FUNCT"
      else "UNKNOWN_OPCODE") := by
  obtain ⟨h1, -, -, -, -, h6⟩ := rForm_fields o rs rt rd sh f
  rw [tableMnemonic_eq, h1, h6]

/-- The first matching row of an I-form word whose opcode is not 0, by opcode. -/
theorem tableMnemonic_iForm {o : Op6} (ho : o ≠ 0x00#6) (rs rt : RegIdx) (imm : Imm) :
    tableMnemonic (iForm o rs rt imm) = some
      (if o = 0x08#6 then "ADDI" else if o = 0x04#6 then "BEQ" else if o = 0x23#6 then "LW"
      else if o = 0x2B#6 then "SW" else "UNKNOWN_OPCODE") := by
  rw [tableMnemonic_eq, (iForm_fields o rs rt imm).1]
  simp [ho]

/-- The instruction's word belongs to the instruction's own row (R118). -/
def OwnRow.Statement (i : Instr) : Prop := i.wellFormed = true → tableMnemonic (encode i) = some i.mnemonic

theorem OwnRow.add (rs rt rd : RegIdx) (shamt : Shamt) : OwnRow.Statement (.add rs rt rd shamt) := fun _ => by
  show tableMnemonic (rForm _ _ _ _ _ _) = _
  rw [tableMnemonic_rForm]
  rfl

theorem OwnRow.sub (rs rt rd : RegIdx) (shamt : Shamt) : OwnRow.Statement (.sub rs rt rd shamt) := fun _ => by
  show tableMnemonic (rForm _ _ _ _ _ _) = _
  rw [tableMnemonic_rForm]
  rfl

theorem OwnRow.slt (rs rt rd : RegIdx) (shamt : Shamt) : OwnRow.Statement (.slt rs rt rd shamt) := fun _ => by
  show tableMnemonic (rForm _ _ _ _ _ _) = _
  rw [tableMnemonic_rForm]
  rfl

theorem OwnRow.addi (rs rt : RegIdx) (imm : Imm) : OwnRow.Statement (.addi rs rt imm) := fun _ => by
  show tableMnemonic (iForm _ _ _ _) = _
  rw [tableMnemonic_iForm (by decide)]
  rfl

theorem OwnRow.beq (rs rt : RegIdx) (imm : Imm) : OwnRow.Statement (.beq rs rt imm) := fun _ => by
  show tableMnemonic (iForm _ _ _ _) = _
  rw [tableMnemonic_iForm (by decide)]
  rfl

theorem OwnRow.lw (rs rt : RegIdx) (imm : Imm) : OwnRow.Statement (.lw rs rt imm) := fun _ => by
  show tableMnemonic (iForm _ _ _ _) = _
  rw [tableMnemonic_iForm (by decide)]
  rfl

theorem OwnRow.sw (rs rt : RegIdx) (imm : Imm) : OwnRow.Statement (.sw rs rt imm) := fun _ => by
  show tableMnemonic (iForm _ _ _ _) = _
  rw [tableMnemonic_iForm (by decide)]
  rfl

theorem OwnRow.unknownFunct (rs rt rd : RegIdx) (shamt : Shamt) (funct : Op6) :
    OwnRow.Statement (.unknownFunct rs rt rd shamt funct) := fun h => by
  show tableMnemonic (rForm _ _ _ _ _ _) = _
  have hf : funct ≠ 0x20#6 ∧ funct ≠ 0x22#6 ∧ funct ≠ 0x2A#6 := by
    simpa [Instr.wellFormed, definedFuncts] using h
  rw [tableMnemonic_rForm]
  simp [hf, Instr.mnemonic]

theorem OwnRow.unknownOpcode (opcode : Op6) (rs rt rd : RegIdx) (shamt : Shamt) (funct : Op6) :
    OwnRow.Statement (.unknownOpcode opcode rs rt rd shamt funct) := fun h => by
  show tableMnemonic (rForm _ _ _ _ _ _) = _
  have ho : opcode ≠ 0x00#6 ∧ opcode ≠ 0x04#6 ∧ opcode ≠ 0x08#6 ∧ opcode ≠ 0x23#6 ∧ opcode ≠ 0x2B#6 := by
    simpa [Instr.wellFormed, definedOpcodes] using h
  rw [tableMnemonic_rForm]
  simp [ho, Instr.mnemonic]

end Sys2Proof.Laws
end

