-- ==== Sys2Proof/Machine/Disassembly.lean ====
section
/-! DEFINITION. The instruction texts of spec/30_encoding.md R115 and R116: notation only, no behaviour rests on it (D10). -/

namespace Sys2Proof.Machine

/-- A register is written R followed by its decimal index (R115). -/
def regText (i : RegIdx) : String := "R" ++ toString i.toNat

/-- A displacement as R116 writes it: `[Rs+4]`, `[Rs-4]`. -/
def baseText (rs : RegIdx) (imm : Imm) : String :=
  "[" ++ regText rs ++ (if imm.toInt < 0 then "" else "+") ++ toString imm.toInt ++ "]"

/-- The k low hexadecimal digits of n, capitals, most significant first. -/
def hexDigits : Nat → Nat → String
  | 0, _ => ""
  | k + 1, n => hexDigits k (n / 16) ++ String.singleton (Nat.digitChar (n % 16)).toUpper

/-- An unsupported word is written `.word 0x........` (R116). -/
def wordText (w : Word) : String := ".word 0x" ++ hexDigits 8 w.toNat

/-- The text of an instruction (R116). DESIGN CHOICE (assumption log 17; safe: no behaviour rests on a text): R116 gives an
ADD, SUB or SLT a text for shamt = 0 alone; a word of these classes with another shamt gets the same text here, without
its shamt, because it is the same instruction (R109). Encoding the text therefore gives the canonical word, not this one. -/
def instrText (i : Instr) : String :=
  match i with
  | .add rs rt rd _ => "ADD " ++ regText rd ++ ", " ++ regText rs ++ ", " ++ regText rt
  | .sub rs rt rd _ => "SUB " ++ regText rd ++ ", " ++ regText rs ++ ", " ++ regText rt
  | .slt rs rt rd _ => "SLT " ++ regText rd ++ ", " ++ regText rs ++ ", " ++ regText rt
  | .addi rs rt imm => "ADDI " ++ regText rt ++ ", " ++ regText rs ++ ", " ++ toString imm.toInt
  | .beq rs rt imm => "BEQ " ++ regText rs ++ ", " ++ regText rt ++ ", " ++ toString imm.toInt
  | .lw rs rt imm => "LW " ++ regText rt ++ ", " ++ baseText rs imm
  | .sw rs rt imm => "SW " ++ regText rt ++ ", " ++ baseText rs imm
  | .unknownFunct rs rt rd shamt funct => wordText (encode (.unknownFunct rs rt rd shamt funct))
  | .unknownOpcode opcode rs rt rd shamt funct => wordText (encode (.unknownOpcode opcode rs rt rd shamt funct))

end Sys2Proof.Machine
end

