-- ==== Sys2Proof/Tests/Slice0.lean ====
section
/-! SUPPORT. Tests with results from outside the model: the vectors of spec/95_test_vectors.md (V-…) and the examples in the
rules. Then, for each statement with hypotheses, a witness that meets them all. -/

namespace Sys2Proof.Tests

open Sys2Proof Sys2Proof.Machine

/-! Helpers. -/

/-- The state a step answers; the step's own state where it would not answer one. -/
def after (s : State) : State :=
  match step s with
  | .next t => t
  | .fault _ => s
  | .refused _ => s

/-- Registers written in order. -/
def regsSet (l : List (RegIdx × Word)) (s : State) : State := l.foldl (fun s p => s.writeReg p.1 p.2) s

/-- The usual start of the vectors: the word at address 10, something at 11, pc 10, fresh default cache. -/
def at10 (w : Word) : State :=
  { State.reset with
    pc := 10#8
    mem := [(10, { word := w, kind := .instruction }), (11, { word := 0#32, kind := .instruction })] }

/-- The same with x[1] and x[2] set. -/
def op12 (w a b : Word) : State := regsSet [(1#5, a), (2#5, b)] (at10 w)

/-- A cache of the default geometry with the ways of set 0 given. -/
def cacheOf (w0 w1 : Option Block) (ctr hits misses : Nat) : Cache :=
  { cfg := CacheConfig.standard
    sets := [[w0, w1], [none, none], [none, none], [none, none]]
    accessCounter := ctr
    hits := hits
    misses := misses }

/-- One more entry of Backing Memory. -/
def withWord (a : Addr) (w : Word) (k : Kind) (s : State) : State := s.memWrite a w k

/-! ## Well-formed terms: each ill-formed one is refused, its neighbour is not -/

theorem test_illformed_funct_add : (Instr.unknownFunct 1#5 2#5 3#5 0#5 0x20#6).wellFormed = false := by decide
theorem test_illformed_funct_sub : (Instr.unknownFunct 1#5 2#5 3#5 0#5 0x22#6).wellFormed = false := by decide
theorem test_illformed_funct_slt : (Instr.unknownFunct 1#5 2#5 3#5 0#5 0x2A#6).wellFormed = false := by decide
theorem test_wellformed_funct : (Instr.unknownFunct 1#5 2#5 3#5 0#5 0x21#6).wellFormed = true := by decide
theorem test_illformed_opcodes :
    [0x00#6, 0x04#6, 0x08#6, 0x23#6, 0x2B#6].all
      (fun o => (Instr.unknownOpcode o 0#5 0#5 0#5 0#5 0#6).wellFormed == false) = true := by decide
theorem test_wellformed_opcode : (Instr.unknownOpcode 0x09#6 0#5 0#5 0#5 0#5 0#6).wellFormed = true := by decide
/-- U1: a geometry with a zero count is refused; the default one is 4 sets of 2 ways. -/
theorem test_geometry : CacheConfig.ofCounts 0 2 = none ∧ CacheConfig.ofCounts 4 0 = none ∧
    CacheConfig.ofCounts 4 2 = some CacheConfig.standard := by decide

/-! ## Decoding: words written out bit by bit, opcode rs rt rd shamt funct or opcode rs rt imm -/

/-- V-D4. -/
theorem test_decode_add : decode 0b000000_00001_00010_00011_00000_100000#32 = .add 1#5 2#5 3#5 0#5 := by decide
/-- V-D5. -/
theorem test_decode_sub : decode 0b000000_00001_00010_00011_00000_100010#32 = .sub 1#5 2#5 3#5 0#5 := by decide
/-- V-D6. -/
theorem test_decode_slt : decode 0b000000_00001_00010_00011_00000_101010#32 = .slt 1#5 2#5 3#5 0#5 := by decide
/-- V-D2. -/
theorem test_decode_addi : decode 0b001000_00000_00001_0000000000001010#32 = .addi 0#5 1#5 10#16 := by decide
/-- V-D12. -/
theorem test_decode_beq : decode 0b000100_00001_00000_0000000000000011#32 = .beq 1#5 0#5 3#16 := by decide
/-- V-D13. -/
theorem test_decode_lw : decode 0b100011_00000_00010_0000000000000000#32 = .lw 0#5 2#5 0#16 := by decide
/-- V-D16. -/
theorem test_decode_sw : decode 0b101011_00001_00010_0000000001100100#32 = .sw 1#5 2#5 100#16 := by decide
/-- V-D10: funct 0x2B under opcode 0 is not SLT. -/
theorem test_decode_unknownFunct :
    decode 0b000000_00001_00010_00011_00000_101011#32 = .unknownFunct 1#5 2#5 3#5 0#5 0x2B#6 := by decide
/-- V-D21: funct is not consulted under another opcode. -/
theorem test_decode_unknownOpcode :
    decode 0b000010_00000_00000_00000_00000_100000#32 = .unknownOpcode 0x02#6 0#5 0#5 0#5 0#5 0x20#6 := by decide
/-- V-D1, V-D19, V-D20, V-D23: the word 0, one bit from LW, one bit from SW, all ones. -/
theorem test_decode_unknown_classes :
    [0x00000000#32, 0x88000000#32, 0xA8000000#32, 0xFFFFFFFF#32].all
      (fun w => (decodeForm w).cls == .unknown) = true := by decide
/-- V-D11: all seven fields are extracted, whichever form the word is read in (R106). -/
theorem test_decode_all_fields :
    decodeForm 0x1000FFFC#32 =
      { cls := .beq, opcode := 0x04#6, rs := 0#5, rt := 0#5, rd := 31#5, shamt := 31#5, funct := 0x3C#6,
        imm := 0xFFFC#16 } := by decide
/-- R116's canonical encodings of R115's texts (V-D4, V-D3, V-D14). -/
theorem test_encode : encode (.add 1#5 2#5 3#5 0#5) = 0x00221820#32 ∧ encode (.addi 0#5 2#5 20#16) = 0x20020014#32 ∧
    encode (.sw 0#5 1#5 0#16) = 0xAC010000#32 := by decide
/-- The table's word of a row, as the host asks for it. -/
theorem test_decodeTableWord : decodeTableWord 32 0x8C220004 = some (.lw 1#5 2#5 4#16) := by decide

/-! ## One step per instruction -/

/-- V-A3: ADD wraps to 0. -/
theorem test_add_wraps : (after (op12 0x00221820#32 0xFFFFFFFF#32 1#32)).readReg 3#5 = 0#32 := by decide
/-- V-A18: a source that is the destination. -/
theorem test_add_same : (after (op12 0x00220820#32 7#32 9#32)).readReg 1#5 = 0x10#32 := by decide
/-- V-A12: 0 - (-2^31) wraps to 0x80000000. -/
theorem test_sub_wraps : (after (op12 0x00221822#32 0#32 0x80000000#32)).readReg 3#5 = 0x80000000#32 := by decide
/-- V-A19: the second source is the destination. -/
theorem test_sub_same : (after (op12 0x00221022#32 7#32 9#32)).readReg 2#5 = 0xFFFFFFFE#32 := by decide
/-- V-A8: the most negative value is less than the most positive. -/
theorem test_slt_extremes : (after (op12 0x0022182A#32 0x80000000#32 0x7FFFFFFF#32)).readReg 3#5 = 1#32 := by decide
/-- V-A12: 0 is not less than -2^31. -/
theorem test_slt_zero : (after (op12 0x0022182A#32 0#32 0x80000000#32)).readReg 3#5 = 0#32 := by decide
/-- V-I8: the most negative immediate is sign-extended. -/
theorem test_addi_negative : (after (op12 0x20228000#32 0x00008000#32 5#32)).readReg 2#5 = 0#32 := by decide
/-- V-I12: register 0 is writable. -/
theorem test_addi_zero : (after (at10 0x20000003#32)).readReg 0#5 = 3#32 := by decide
/-- V-B8: backward below 0, and the halt check at the absent target. -/
theorem test_beq_taken :
    let t := after { (State.reset.placeAtPc 0x1022FFFE#32) with cycles := 0 }
    t.pc = 255#8 ∧ t.halted = true := by decide
/-- V-B18: registers that differ in bit 31 alone are not equal. -/
theorem test_beq_not_taken : (after (op12 0x10220064#32 0x80000000#32 0#32)).pc = 11#8 := by decide
/-- V-L1: a hit takes the cached word. -/
theorem test_lw_hit :
    let s := { withWord 64#8 0xCAFE0001#32 .data (op12 0x8C220000#32 0x40#32 0#32) with
      cache := cacheOf (some { tag := 16#8, data := 0xCAFE0001#32, lastUsed := 1 }) none 1 0 0 }
    (after s).readReg 2#5 = 0xCAFE0001#32 ∧
      (after s).cache = cacheOf (some { tag := 16#8, data := 0xCAFE0001#32, lastUsed := 2 }) none 2 1 0 := by decide
/-- V-L4: a miss with the set full evicts the least recently used way; V-L3: an absent address is created as (0, Data). -/
theorem test_lw_misses :
    let s := { withWord 72#8 3#32 .data (op12 0x8C220048#32 0#32 0x55#32) with
      cache := cacheOf (some { tag := 16#8, data := 1#32, lastUsed := 1 })
        (some { tag := 17#8, data := 2#32, lastUsed := 2 }) 2 0 0 }
    (after s).readReg 2#5 = 3#32 ∧
      (after s).cache = cacheOf (some { tag := 18#8, data := 3#32, lastUsed := 4 })
        (some { tag := 17#8, data := 2#32, lastUsed := 2 }) 4 0 1 ∧
      (after (at10 0x8C2200C8#32)).entryAt 200#8 = some { word := 0#32, kind := .data } := by decide
/-- V-S1: SW creates the entry and allocates in the cache. -/
theorem test_sw_allocates :
    let t := after (op12 0xAC220021#32 0#32 0xDEADBEEF#32)
    t.entryAt 33#8 = some { word := 0xDEADBEEF#32, kind := .data } ∧
      t.cache.way 1 0 = some { tag := 8#8, data := 0xDEADBEEF#32, lastUsed := 1 } ∧ t.cache.hits = 0 := by decide
/-- V-S4: SW to its own address completes, and re-tags the entry Data. -/
theorem test_sw_self :
    let t := after (regsSet [(5#5, 10#32)] (at10 0xACA60000#32))
    t.entryAt 10#8 = some { word := 0#32, kind := .data } ∧ t.pc = 11#8 := by decide
/-- V-U2: an unsupported funct changes pc and cycles alone. -/
theorem test_unknownFunct :
    after (op12 0x00221821#32 1#32 2#32) = { op12 0x00221821#32 1#32 2#32 with pc := 11#8, cycles := 1 } := by decide
/-- V-U7: an unsupported opcode at 255; pc wraps to 0, which is absent here, so the engine halts (R135). -/
theorem test_unknownOpcode :
    after (({ State.reset with pc := 255#8 } : State).placeAtPc 0xFFFFFFFF#32) =
      { ({ State.reset with pc := 255#8 } : State).placeAtPc 0xFFFFFFFF#32 with
        pc := 0#8, cycles := 1, halted := true } := by decide

/-! ## The frame of the step, reset, the host -/

/-- V-H1: after reset with nothing loaded, the first step executes the word 0 and halts at 1; a second changes nothing. -/
theorem test_reset_run :
    after State.reset = { State.reset with pc := 1#8, cycles := 1, halted := true } ∧
      after (after State.reset) = after State.reset := by decide
/-- What the host asks of a table row's word: step runs it as the first instruction (ADDI R1, R0, 10). -/
theorem test_withFetchWord : (after (State.reset.withFetchWord 32 0x2001000A)).readReg 1#5 = 10#32 := by decide
/-- R200: `step` is the engine's, a load the host's. -/
theorem test_agents : HostAction.step.agent = .exe ∧ (HostAction.load 0#8 0#32 .data).agent = .host := by decide
/-- R142 with D11: the event of the first step after reset reports an unsupported word 0. -/
theorem test_trace :
    State.reset.traceEvent = some { pc := 0#8, word := 0#32, decoded := decodeForm 0#32 } ∧
      State.reset.traceEvent.map TraceEvent.unsupported = some true := by decide
/-- R115, R116: texts of the source's own examples and of an unsupported word. -/
theorem test_texts : instrText (decode 0x2001000A#32) = "ADDI R1, R0, 10" ∧
    instrText (decode 0x8FFFFFFF#32) = "LW R31, [R31-1]" ∧
    instrText (decode 0x24010001#32) = ".word 0x24010001" := by decide

/-! ## Operands and the cache controller -/

/-- V-E2, V-E3, V-E7, V-E9. -/
theorem test_effective_address :
    effectiveAddr 0x105#32 0xFFFF#16 = 4#8 ∧ effectiveAddr 0xFFFFFFFF#32 2#16 = 1#8 ∧
      effectiveAddr 0x80000000#32 0x7FFF#16 = 255#8 ∧ effectiveAddr 3#32 0xFFFC#16 = 255#8 := by decide
/-- V-B7, V-B13, V-B14, V-B16. -/
theorem test_branch_target :
    branchTarget 254#8 3#16 = 2#8 ∧ branchTarget 100#8 0x7FFF#16 = 100#8 ∧ branchTarget 100#8 0x8000#16 = 101#8 ∧
      branchTarget 255#8 0xFFFF#16 = 255#8 := by decide
/-- V-B15: the smallest 16-bit intermediate. -/
theorem test_branch_sum : (branchSum16 0#8 0x8000#16).toInt = -32767 ∧ branchTargetTwoPaths 0#8 0x8000#16 = 1#8 := by
  decide
/-- V-C2: three writes to one set of two ways, then a read of each address. -/
theorem test_cache_lru :
    let c := ((((Cache.fresh CacheConfig.standard).write 0#8 0xA0#32).write 4#8 0xA4#32).write 8#8 0xA8#32)
    (c.read 0#8).1 = (0#32, false) ∧ ((c.read 0#8).2.read 4#8).1 = (0xA4#32, true) ∧
      (((c.read 0#8).2.read 4#8).2.read 8#8).2 =
        cacheOf (some { tag := 2#8, data := 0xA8#32, lastUsed := 6 })
          (some { tag := 1#8, data := 0xA4#32, lastUsed := 5 }) 6 2 1 := by decide
/-- V-C4: an update in place refreshes recency, so the next eviction takes way 1. -/
theorem test_cache_update :
    (((((Cache.fresh CacheConfig.standard).write 0#8 0xA0#32).write 4#8 0xA4#32).write 0#8 0xB0#32).write 8#8 0xA8#32) =
      cacheOf (some { tag := 0#8, data := 0xB0#32, lastUsed := 3 })
        (some { tag := 2#8, data := 0xA8#32, lastUsed := 4 }) 4 0 0 := by decide
/-- V-C8: three sets; address 255 falls in set 0 with tag 85. -/
theorem test_cache_three_sets :
    ((Cache.fresh { numSets := 3, blocksPerSet := 2 }).write 255#8 0x1F#32).way 0 0 =
      some { tag := 85#8, data := 0x1F#32, lastUsed := 1 } := by decide
/-- V-C7: one set of one way. -/
theorem test_cache_one_line :
    ((((Cache.fresh { numSets := 1, blocksPerSet := 1 }).write 0#8 1#32).write 1#8 2#32).read 0#8).1 =
      (0#32, false) := by decide
/-- V-C2's hit rate, 2/3, and R69's value without an access. -/
theorem test_hit_rate : (cacheOf none none 6 2 1).hitRate = 2 / 3 ∧ State.reset.cache.hitRate = 0 := by
  norm_num [Cache.hitRate, cacheOf, State.reset, State.resetWith, Cache.fresh]

/-! ## Witnesses: for each statement with hypotheses, a concrete state and operands that meet them all -/

/-- V-L1's state: LW R2, [R1+0] at 10, x[1] = 64, the word at 64 cached in way 0 of set 0. -/
def hitState : State :=
  { withWord 64#8 0xCAFE0001#32 .data (op12 0x8C220000#32 0x40#32 0#32) with
    cache := cacheOf (some { tag := 16#8, data := 0xCAFE0001#32, lastUsed := 1 }) none 1 0 0 }

/-- V-L2's state, with the displacement 0: the same, but nothing is cached. -/
def missState : State := withWord 64#8 0xCAFE0001#32 .data (op12 0x8C220000#32 0x40#32 0#32)

/-- A Halted engine. -/
def haltedState : State := { State.reset with halted := true }

/-- A memory with all 256 addresses present. -/
def fullMemory : Memory := (List.range 256).map (fun a => (a, { word := 0#32, kind := .data }))


/-! The states' own facts. -/

theorem hitState_step : step hitState = .next (after hitState) := rfl
theorem missState_step : step missState = .next (after missState) := rfl
theorem haltedState_step : step haltedState = .next haltedState := rfl
theorem hitState_holds : hitState.cache.Holds 64#8 0 { tag := 16#8, data := 0xCAFE0001#32, lastUsed := 1 } :=
  Cache.find_eq_some.1 (by decide)
theorem missState_lacks : missState.cache.Lacks 64#8 := Cache.find_eq_none.1 (by decide)

theorem hitState_way (s j : Nat) :
    hitState.cache.way s j =
      if s = 0 ∧ j = 0 then some { tag := 16#8, data := 0xCAFE0001#32, lastUsed := 1 } else none := by
  match s, j with
  | 0, 0 => rfl
  | 0, 1 => rfl
  | 0, j + 2 => rfl
  | 1, 0 => rfl
  | 1, 1 => rfl
  | 1, j + 2 => rfl
  | 2, 0 => rfl
  | 2, 1 => rfl
  | 2, j + 2 => rfl
  | 3, 0 => rfl
  | 3, 1 => rfl
  | 3, j + 2 => rfl
  | s + 4, j => rw [if_neg (by omega)]; rfl

theorem hitState_block {s j : Nat} {b : Block} (h : hitState.cache.way s j = some b) :
    s = 0 ∧ j = 0 ∧ b = { tag := 16#8, data := 0xCAFE0001#32, lastUsed := 1 } := by
  rw [hitState_way] at h
  split at h
  · next hs => exact ⟨hs.1, hs.2, (Option.some.inj h).symm⟩
  · cases h

theorem hitState_shape : CacheShape hitState.cache := ⟨rfl, by decide⟩

theorem hitState_inv : Inv hitState where
  mem := by decide
  cache :=
    { shape := hitState_shape
      filledFirst := fun s i j hij hj => by
        obtain ⟨b, hb⟩ := Option.isSome_iff_exists.1 hj
        have := (hitState_block hb).2.1
        omega
      tagsDistinct := fun s i j b d hb hd _ => by rw [(hitState_block hb).2.1, (hitState_block hd).2.1]
      stampsDistinct := fun s i r j b d hb hd _ => by
        obtain ⟨h1, h2, -⟩ := hitState_block hb
        obtain ⟨h3, h4, -⟩ := hitState_block hd
        omega
      stampsInRange := fun s i b hb => by
        rw [(hitState_block hb).2.2]
        decide
      addressable := fun s i b hb => by
        obtain ⟨rfl, -, rfl⟩ := hitState_block hb
        decide
      counters := by decide }

theorem hitState_coherent : Coherent hitState := fun s j b hb => by
  obtain ⟨rfl, -, rfl⟩ := hitState_block hb
  decide

theorem missState_coherent : Coherent missState := fun s j b hb => by
  rw [show missState.cache.way s j = none from Cache.fresh_empty CacheConfig.standard s j] at hb
  cases hb

theorem fullMemory_present (a : Addr) : ({ State.reset with mem := fullMemory } : State).memPresent a = true := by
  have gen : ∀ (k n : Nat), n ≤ a.toNat → a.toNat < n + k →
      (Memory.entryAt ((List.range' n k).map (fun a => (a, ({ word := 0#32, kind := .data } : Entry)))) a.toNat).isSome =
        true := by
    intro k
    induction k with
    | zero => intro n h1 h2; omega
    | succ k ih =>
      intro n h1 h2
      rw [List.range'_succ, List.map_cons]
      unfold Memory.entryAt
      split
      · rfl
      · exact ih (n + 1) (by omega) (by omega)
  have h := gen 256 0 (Nat.zero_le _) (by have := a.isLt; omega)
  rw [← List.range_eq_range'] at h
  exact h

/-! Decoder and encoder. -/

/-- Two ADD words that differ in shamt alone (V-D4, V-D7). -/
theorem witness_OpcodeMapDecidesClass :
    opcodeOf 0x00221820#32 = opcodeOf 0x002218E0#32 ∧ opcodeOf 0x00221820#32 = 0x00#6 ∧
      functOf 0x00221820#32 = functOf 0x002218E0#32 := by decide

/-- One word of each class, UNKNOWN with opcode 0 and with another (V-D4 to V-D6, V-D2, V-D12 to V-D14, V-D8, V-D17). -/
theorem witness_OpcodeMapDecidesClass_classes :
    [0x00221820#32, 0x00221822#32, 0x0022182A#32, 0x2001000A#32, 0x10200003#32, 0x8C020000#32, 0xAC010000#32,
        0x00221821#32, 0x24010001#32].map (fun w => ((decodeForm w).cls, opcodeOf w == 0x00#6)) =
      [(.add, true), (.sub, true), (.slt, true), (.addi, false), (.beq, false), (.lw, false), (.sw, false),
        (.unknown, true), (.unknown, false)] := by decide

theorem witness_EncodingInvertsDecoding : (decodeForm 0x002218E0#32).cls ≠ .unknown := by decide

theorem witness_DecodeOfEncodeIsIdentity :
    (Instr.unknownOpcode 0x3F#6 31#5 31#5 31#5 31#5 0x3F#6).wellFormed = true ∧
      (Instr.unknownFunct 0#5 0#5 0#5 0#5 0#6).wellFormed = true := by decide

theorem witness_FirstMatchingRowIsTheDecoded :
    ∃ p ∈ opcodeRows.take 7, ∃ q ∈ opcodeRows.take 7, p.covers 0x00221820#32 = true ∧ q.covers 0x00221820#32 = true := by
  decide

/-! The step. -/

theorem witness_StepFollowsItsLines :
    haltedState.halted = true ∧ hitState.halted = false ∧
      ∃ t, exec (decode (((hitState.entryAt hitState.pc).map Entry.word).getD 0#32)) hitState = .next t :=
  ⟨rfl, rfl, _, rfl⟩

theorem witness_StepRunsTheInstructionAtPc :
    hitState.halted = false ∧ hitState.entryAt hitState.pc = some { word := 0x8C220000#32, kind := .instruction } ∧
      decode 0x8C220000#32 = .lw 1#5 2#5 0#16 ∧ (Instr.lw 1#5 2#5 0#16).wellFormed = true ∧
      ∃ t, exec (.lw 1#5 2#5 0#16) hitState = .next t :=
  ⟨rfl, by decide, by decide, rfl, _, rfl⟩

theorem witness_HaltedStepChangesNothing : haltedState.halted = true := rfl

theorem witness_StepCountsAndProbesTheNewPc : hitState.halted = false ∧ step hitState = .next (after hitState) :=
  ⟨rfl, rfl⟩

/-- Its one hypothesis is that the engine is Halted. -/
theorem witness_EveryStepAnswersANextState : haltedState.halted = true ∧ step haltedState = .next haltedState := ⟨rfl, rfl⟩

/-- An absent pc (after reset), a present one, and two states with the same memory and pc. -/
theorem witness_FetchDefaultsToWordZero :
    (State.reset.halted = false ∧ State.reset.entryAt State.reset.pc = none) ∧
      (hitState.halted = false ∧
        hitState.entryAt hitState.pc = some { word := 0x8C220000#32, kind := .instruction } ∧
        ∃ u, exec (decode 0x8C220000#32) hitState = .next u) ∧
      State.reset.mem = haltedState.mem ∧ State.reset.pc = haltedState.pc :=
  ⟨by decide, ⟨rfl, by decide, _, rfl⟩, rfl, rfl⟩

theorem witness_OnlyAFirstFetchFindsNothing :
    step hitState = .next (after hitState) ∧ Loaded (hostLoad 0#8 0x2001000A#32 .instruction State.reset) :=
  ⟨rfl, .load _ _ _ (.reset CacheConfig.standard)⟩

/-- A Halted engine under a step, a load and a cache call. -/
theorem witness_OnlyResetLeavesHalted :
    haltedState.halted = true ∧ hostApply .step haltedState = .next haltedState ∧
      (∃ t, hostApply (.load 255#8 1#32 .data) haltedState = .next t) ∧
      (∃ t, hostApply (.cacheWrite 0#8 1#32) haltedState = .next t) ∧ ∀ cfg, HostAction.step ≠ .reset cfg :=
  ⟨rfl, rfl, ⟨_, rfl⟩, ⟨_, rfl⟩, fun _ h => by cases h⟩

theorem witness_FullMemoryNeverHalts :
    ({ State.reset with mem := fullMemory } : State).halted = false ∧
      (∀ a : Addr, ({ State.reset with mem := fullMemory } : State).memPresent a = true) ∧
      ∃ t, step { State.reset with mem := fullMemory } = .next t :=
  ⟨rfl, fullMemory_present, _, rfl⟩

/-- An unsupported word and a supported one, both reported. -/
theorem witness_TraceReportsTheExecutedWord :
    State.reset.halted = false ∧ State.reset.traceEvent.isSome = true ∧ hitState.halted = false ∧
      hitState.traceEvent.isSome = true := by decide

/-! Reset and the host. -/

/-- Without an access, and with one. -/
theorem witness_HitRateIsTheExactFraction :
    State.reset.cache.hits + State.reset.cache.misses = 0 ∧
      (after hitState).cache.hits + (after hitState).cache.misses = 1 := by decide

/-! Instructions. -/

/-- Both sides of the comparison, at the extremes (V-A8, V-A9), and equal values (V-A10). -/
theorem witness_SltComparesSignedValues :
    (0x80000000#32).toInt < (0x7FFFFFFF#32).toInt ∧ ¬(0x7FFFFFFF#32).toInt < (0x80000000#32).toInt ∧
      ¬(0x80000000#32).toInt < (0x80000000#32).toInt := by decide

theorem witness_RegisterZeroIsWritable :
    (∃ b, hitState.cache.Holds (effectiveAddr (hitState.readReg 1#5) 0#16) 0 b) ∧
      missState.cache.Lacks (effectiveAddr (missState.readReg 1#5) 0#16) := ⟨⟨_, hitState_holds⟩, missState_lacks⟩

theorem witness_BeqBranchesOnEquality :
    hitState.readReg 3#5 = hitState.readReg 4#5 ∧ hitState.readReg 1#5 ≠ hitState.readReg 2#5 := by decide

/-- The negative offsets' two ends. -/
theorem witness_BothBranchPathsAgree : (0x8000#16).toInt < 0 ∧ (0xFFFF#16).toInt < 0 ∧ ¬(0#16).toInt < 0 := by decide

/-- V-H7: BEQ R0, R0, 49 at address 0; 50 is absent. -/
theorem witness_BeqReachesEveryAddress :
    let s := State.reset.placeAtPc 0x10000031#32
    s.halted = false ∧ decode s.fetch = .beq 0#5 0#5 49#16 ∧ s.readReg 0#5 = s.readReg 0#5 ∧
      s.memPresent (branchTarget s.pc 49#16) = false := by decide

/-- No branch, a branch not taken, a branch taken; and the same instruction at another pc. -/
theorem witness_PcAdvancesOrBranches :
    (∃ t, exec (.add 1#5 2#5 3#5 0#5) hitState = .next t) ∧
      (∃ t, exec (.beq 1#5 2#5 5#16) hitState = .next t) ∧ hitState.readReg 1#5 ≠ hitState.readReg 2#5 ∧
      (∃ t, exec (.beq 3#5 4#5 5#16) hitState = .next t) ∧ hitState.readReg 3#5 = hitState.readReg 4#5 ∧
      ∃ u, exec (.beq 3#5 4#5 5#16) (hitState.setPc 255#8) = .next u :=
  ⟨⟨_, rfl⟩, ⟨_, rfl⟩, by decide, ⟨_, rfl⟩, by decide, _, rfl⟩

theorem witness_LoadHitTakesTheCachedWord :
    hitState.cache.Holds (effectiveAddr (hitState.readReg 1#5) 0#16) 0
      { tag := 16#8, data := 0xCAFE0001#32, lastUsed := 1 } := hitState_holds

theorem witness_LoadMissTakesTheMemoryWord :
    missState.cache.Lacks (effectiveAddr (missState.readReg 1#5) 0#16) ∧
      missState.entryAt (effectiveAddr (missState.readReg 1#5) 0#16) =
        some { word := 0xCAFE0001#32, kind := .data } := ⟨missState_lacks, by decide⟩

/-- Address 255, the top. -/
theorem witness_LoadMissCreatesAnAbsentAddress :
    missState.cache.Lacks (effectiveAddr (missState.readReg 0#5) 0xFFFF#16) ∧
      missState.entryAt (effectiveAddr (missState.readReg 0#5) 0xFFFF#16) = none :=
  ⟨Cache.find_eq_none.1 (by decide), by decide⟩

/-- A LW that hits, a LW that misses, a SW and an ADD. -/
theorem witness_CountersPerInstruction :
    (∃ t, exec (.lw 1#5 2#5 0#16) hitState = .next t) ∧
      ¬hitState.cache.Lacks (effectiveAddr (hitState.readReg 1#5) 0#16) ∧
      (∃ t, exec (.lw 1#5 2#5 0#16) missState = .next t) ∧
      missState.cache.Lacks (effectiveAddr (missState.readReg 1#5) 0#16) ∧
      (∃ t, exec (.sw 1#5 2#5 0#16) missState = .next t) ∧ ∃ t, exec (.add 1#5 2#5 3#5 0#5) missState = .next t :=
  ⟨⟨_, rfl⟩, fun h => absurd (Cache.find_eq_none.2 h) (by decide), ⟨_, rfl⟩, missState_lacks, ⟨_, rfl⟩, _, rfl⟩

/-- V-S4: SW to its own address. -/
theorem witness_StoredWordIsFetchedNext :
    let s := regsSet [(5#5, 10#32)] (at10 0xACA60000#32)
    s.halted = false ∧ decode s.fetch = .sw 5#5 6#5 0#16 ∧ effectiveAddr (s.readReg 5#5) 0#16 = s.pc ∧
      ∃ t, step s = .next t := ⟨rfl, by decide, by decide, _, rfl⟩

/-- The word 0 (funct 0) and the neighbours of ADD, SUB and SLT. -/
theorem witness_UnknownFunctOnlyAdvancesPc :
    [0x00000000#32, 0x00221821#32, 0x00221823#32, 0x0022182B#32, 0x0000003F#32].all
      (fun w => w &&& 0xFC000000#32 == 0x00000000#32 && !([0x20#6, 0x22#6, 0x2A#6].contains (functOf w))) = true := by
  decide

/-- After reset the fetched word is 0. -/
theorem witness_UnknownFunctOnlyAdvancesPc_step :
    State.reset.halted = false ∧ decode State.reset.fetch = .unknownFunct 0#5 0#5 0#5 0#5 0#6 ∧
      ∃ t, step State.reset = .next t := ⟨rfl, by decide, _, rfl⟩

theorem witness_UnknownOpcodeOnlyAdvancesPc :
    opcodeOf 0x24010001#32 ∉ [0x00#6, 0x04#6, 0x08#6, 0x23#6, 0x2B#6] ∧
      opcodeOf 0xFFFFFFFF#32 ∉ [0x00#6, 0x04#6, 0x08#6, 0x23#6, 0x2B#6] := by decide

theorem witness_UnknownOpcodeOnlyAdvancesPc_step :
    let s := State.reset.placeAtPc 0xFFFFFFFF#32
    s.halted = false ∧ decode s.fetch = .unknownOpcode 0x3F#6 31#5 31#5 31#5 31#5 0x3F#6 ∧
      ∃ t, step s = .next t := ⟨rfl, by decide, _, rfl⟩

/-! The cache controller. -/

theorem witness_AddressSplitsIntoSetAndTag :
    hitState.cache.setIndex 255#8 = hitState.cache.setIndex 255#8 ∧
      hitState.cache.tagOf 255#8 = hitState.cache.tagOf 255#8 := ⟨rfl, rfl⟩

theorem witness_CacheReadHitsOrMisses :
    hitState.cache.Holds 64#8 0 { tag := 16#8, data := 0xCAFE0001#32, lastUsed := 1 } ∧
      hitState.cache.Lacks 68#8 := ⟨hitState_holds, Cache.find_eq_none.1 (by decide)⟩

/-- Case A at way 0; case B at way 1 (the last) and, in another set, at way 0; each with its hypotheses. -/
theorem witness_CacheWriteUpdatesFillsOrEvicts :
    CacheShape hitState.cache ∧
      hitState.cache.Holds 64#8 0 { tag := 16#8, data := 0xCAFE0001#32, lastUsed := 1 } ∧
      (hitState.cache.Lacks 68#8 ∧ hitState.cache.way 0 1 = none ∧ ∀ i, i < 1 → (hitState.cache.way 0 i).isSome) ∧
      hitState.cache.Lacks 255#8 ∧ hitState.cache.way 3 0 = none :=
  ⟨hitState_shape, hitState_holds, ⟨Cache.find_eq_none.1 (by decide), rfl, by decide⟩,
    Cache.find_eq_none.1 (by decide), rfl⟩

/-- Case C at way 1, the last (V-S3's order of use in set 0). -/
theorem witness_CacheWriteEvicts_last :
    let c := cacheOf (some { tag := 0#8, data := 0xA#32, lastUsed := 3 })
      (some { tag := 1#8, data := 0xB#32, lastUsed := 2 }) 3 1 0
    c.Lacks 8#8 ∧ (∀ i, i < 2 → (c.way 0 i).isSome) ∧
      c.way 0 1 = some { tag := 1#8, data := 0xB#32, lastUsed := 2 } ∧
      (∀ i d, c.way 0 i = some d → 2 ≤ d.lastUsed) ∧ ∀ i d, i < 1 → c.way 0 i = some d → 2 < d.lastUsed := by
  refine ⟨Cache.find_eq_none.1 (by decide), by decide, rfl, fun i d h => ?_, fun i d hi h => ?_⟩
  · match i with
    | 0 => cases h; decide
    | 1 => cases h; decide
    | i + 2 => cases h
  · match i with
    | 0 => cases h; decide
    | i + 1 => omega

/-- The full set of V-L4, with way 0 the least recently used. -/
def fullCache : Cache :=
  cacheOf (some { tag := 16#8, data := 1#32, lastUsed := 1 }) (some { tag := 17#8, data := 2#32, lastUsed := 2 }) 2 0 0

/-- Case C at way 0, the lowest. -/
theorem witness_CacheWriteEvicts :
    CacheShape fullCache ∧ fullCache.Lacks 72#8 ∧ (∀ i, i < 2 → (fullCache.way 0 i).isSome) ∧
      fullCache.way 0 0 = some { tag := 16#8, data := 1#32, lastUsed := 1 } ∧
      (∀ i d, fullCache.way 0 i = some d → 1 ≤ d.lastUsed) ∧
      ∀ i d, i < 0 → fullCache.way 0 i = some d → 1 < d.lastUsed := by
  refine ⟨⟨rfl, by decide⟩, Cache.find_eq_none.1 (by decide), by decide, rfl, fun i d h => ?_, fun i d hi => by omega⟩
  match i with
  | 0 => cases h; decide
  | 1 => cases h; decide
  | i + 2 => cases h

theorem witness_VictimIsTheFirstLeastRecentlyUsed :
    [({ tag := 0#8, data := 0#32, lastUsed := 7 } : Block), { tag := 1#8, data := 0#32, lastUsed := 7 }] ≠ [] := by
  decide

theorem witness_WriteThenReadHits : CacheShape fullCache := ⟨rfl, by decide⟩

/-- V-C2. -/
theorem witness_LruEvictsTheAddressWrittenFirst :
    CacheShape State.reset.cache ∧ (∀ j, State.reset.cache.way (0 % 4) j = none) ∧
      [((4#8 : Addr), (0xA4#32 : Word)), (8#8, 0xA8#32)].length = (State.reset.cache.cfg.blocksPerSet : Nat) ∧
      [(0#8 : Addr), 4#8, 8#8].Nodup ∧ (4#8 : Addr).toNat % 4 = (0#8 : Addr).toNat % 4 ∧
      (8#8 : Addr).toNat % 4 = (0#8 : Addr).toNat % 4 :=
  ⟨CacheShape.fresh _, fun j => Cache.fresh_empty CacheConfig.standard 0 j, rfl, by decide, rfl, rfl⟩

/-! Whole-machine rules. -/

theorem witness_OnlyTheDestinationRegisterChanges :
    ∃ t, exec (.addi 1#5 2#5 1#16) hitState = .next t ∧ t.readReg 2#5 ≠ hitState.readReg 2#5 :=
  ⟨_, rfl, by decide⟩

/-- A SW that changes an entry, and a LW that creates one. -/
theorem witness_OnlyLoadsAndStoresChangeMemory :
    (∃ t, exec (.sw 1#5 2#5 0#16) missState = .next t ∧ t.entryAt 64#8 ≠ missState.entryAt 64#8) ∧
      ∃ t, exec (.lw 0#5 2#5 0xFFFF#16) missState = .next t ∧ t.entryAt 255#8 ≠ missState.entryAt 255#8 :=
  ⟨⟨_, rfl, by decide⟩, _, rfl, by decide⟩

theorem witness_NoEntryIsEverRemoved :
    (∀ cfg, HostAction.step ≠ .reset cfg) ∧ hostApply .step hitState = .next (after hitState) ∧
      hitState.memPresent 10#8 = true := ⟨(fun _ h => by cases h), rfl, by decide⟩

/-- The same state with the entry at pc tagged Data. -/
theorem witness_KindTagsAreNeverRead :
    let s' := withWord 10#8 0x8C220000#32 .data hitState
    hitState.regs = s'.regs ∧ hitState.pc = s'.pc ∧ hitState.halted = s'.halted ∧ hitState.cycles = s'.cycles ∧
      hitState.cache = s'.cache ∧ hitState.mem ≠ s'.mem ∧
      (∀ a, (hitState.entryAt a).map Entry.word = (s'.entryAt a).map Entry.word) ∧
      (∃ t, step hitState = .next t) ∧ ∃ t', step s' = .next t' := by
  refine ⟨rfl, rfl, rfl, rfl, rfl, by decide, fun a => ?_, ⟨_, rfl⟩, _, rfl⟩
  rw [withWord, State.entryAt_memWrite]
  split
  · next h => rw [h]; decide
  · rfl

/-- A memory written in two orders. -/
theorem witness_EqualReadsMeanEqualMemories :
    let e : Entry := { word := 1#32, kind := .data }
    let m := Memory.put (Memory.put [] 255 e) 0 e
    let n := Memory.put (Memory.put [] 0 e) 255 e
    m.wf ∧ n.wf ∧ ∀ a : Addr, m.entryAt a.toNat = n.entryAt a.toNat := ⟨by decide, by decide, fun _ => rfl⟩

/-! Invariants. -/

theorem witness_StepKeepsTheInvariant : Inv hitState ∧ step hitState = .next (after hitState) := ⟨hitState_inv, rfl⟩

theorem witness_HostActionsKeepTheInvariant :
    HostAction.cacheWrite 64#8 5#32 ≠ .step ∧ Inv hitState ∧
      ∃ t, hostApply (.cacheWrite 64#8 5#32) hitState = .next t := ⟨by decide, hitState_inv, _, rfl⟩

theorem witness_StepKeepsCoherence :
    Inv hitState ∧ Coherent hitState ∧ step hitState = .next (after hitState) := ⟨hitState_inv, hitState_coherent, rfl⟩

/-- E7's program loaded, and one step of it. -/
theorem witness_DutifulRunsAreCoherent :
    DutifulRun (after (hostLoad 1#8 0x20020014#32 .instruction
      (hostLoad 0#8 0x2001000A#32 .instruction State.reset))) :=
  .step (s := hostLoad 1#8 0x20020014#32 .instruction (hostLoad 0#8 0x2001000A#32 .instruction State.reset))
    (.start (.load _ _ _ (.load _ _ _ (.reset CacheConfig.standard)))) rfl

/-- On a hit and on a miss. -/
theorem witness_LoadReturnsTheMemoryWord :
    (Coherent hitState ∧ ∃ t, exec (.lw 1#5 2#5 0#16) hitState = .next t) ∧
      Coherent missState ∧ ∃ t, exec (.lw 1#5 2#5 0#16) missState = .next t :=
  ⟨⟨hitState_coherent, _, rfl⟩, missState_coherent, _, rfl⟩

/-- Two states with different caches: a LW that hits in one and misses in the other. -/
theorem witness_CacheIsInvisibleToPrograms :
    Coherent hitState ∧ Coherent missState ∧ hitState.view = missState.view ∧ hitState.cache ≠ missState.cache ∧
      step hitState = .next (after hitState) ∧ step missState = .next (after missState) :=
  ⟨hitState_coherent, missState_coherent, rfl, by decide, rfl, rfl⟩

end Sys2Proof.Tests
end

section
/-! SUPPORT. The two operand laws and the two LW read-backs that O28 needs, and its proof (spec/10_state.md R21). -/

namespace Sys2Proof.Machine

/-- The immediate's contribution (R13, R104) is its sign extension. -/
theorem addImm32_eq (a : Word) (imm : Imm) : addImm32 a imm = a + imm.signExtend 32 := by
  unfold addImm32 trunc
  rw [signed_eq_toInt (by decide), BitVec.ofInt_add, BitVec.ofInt_natCast, BitVec.ofNat_toNat, BitVec.setWidth_eq]
  rfl

/-- SLT's result by the library's signed comparison (R152). -/
theorem setLess_eq (a b : Word) : setLess a b = if a.slt b then 1#32 else 0#32 := by
  unfold setLess signedLess
  rw [signed_eq_toInt (by decide), signed_eq_toInt (by decide)]
  rfl

/-- R171 case H: the destination reads the cached word. -/
theorem exec_lw_hit_readReg {rs rt : RegIdx} {imm : Imm} {s : State} {j : Nat} {b : Block}
    (h : s.cache.Holds (effectiveAddr (s.readReg rs) imm) j b) :
    ∃ t, exec (.lw rs rt imm) s = .next t ∧ t.readReg rt = b.data :=
  ⟨_, exec_lw_hit (Cache.find_eq_some.2 h), by simp⟩

/-- R171 cases M1 and M2: the destination reads the memory word, 0 where the address is absent. -/
theorem exec_lw_miss_readReg {rs rt : RegIdx} {imm : Imm} {s : State}
    (h : s.cache.Lacks (effectiveAddr (s.readReg rs) imm)) :
    ∃ t, exec (.lw rs rt imm) s = .next t ∧
      t.readReg rt = ((s.entryAt (effectiveAddr (s.readReg rs) imm)).map Entry.word).getD 0#32 := by
  have hmiss := Cache.find_eq_none.2 h
  rcases he : s.entryAt (effectiveAddr (s.readReg rs) imm) with _ | e
  · exact ⟨_, exec_lw_absent hmiss he, by simp⟩
  · exact ⟨_, exec_lw_present hmiss he, by simp⟩

/-- Settles O28: register 0 is no special case of the register-write law, so each writing instruction's own equation
gives its destination's value at index 0. -/
theorem registerZeroIsWritable : Obligations.RegisterZeroIsWritable := by
  intro rs rt shamt imm s
  refine ⟨s.readReg_writeReg_same, ⟨_, exec_add .., ?_⟩, ⟨_, exec_sub .., ?_⟩, ⟨_, exec_slt .., ?_⟩,
    ⟨_, exec_addi .., ?_⟩, fun _ _ => exec_lw_hit_readReg, exec_lw_miss_readReg⟩
  · simp [add32_eq]
  · simp [sub32_eq]
  · simp [setLess_eq]
  · simp [addImm32_eq]

end Sys2Proof.Machine
end

section
/-! SUPPORT. Victim selection as a scan that keeps the first least recently used way of the blocks already seen, and the
proofs of O45 and O42 (spec/20_memory.md R68 and R62). -/

namespace Sys2Proof.Machine

/-- Way i of the blocks holds b, no way's `last_used` is smaller, and every lower way's is larger (R68). -/
structure IsFirstLeastUsed (bs : List Block) (i : Nat) (b : Block) : Prop where
  get : bs[i]? = some b
  least : ∀ (k : Nat) (d : Block), bs[k]? = some d → b.lastUsed ≤ d.lastUsed
  first : ∀ (k : Nat) (d : Block), k < i → bs[k]? = some d → b.lastUsed < d.lastUsed

theorem getElem?_concat_eq_some {bs : List Block} {d e : Block} {k : Nat} (h : (bs ++ [d])[k]? = some e) :
    bs[k]? = some e ∨ k = bs.length ∧ e = d := by
  rcases lt_or_ge k bs.length with hk | hk
  · exact .inl (by rwa [List.getElem?_append_left hk] at h)
  · rw [List.getElem?_append_right hk, List.getElem?_singleton] at h
    split at h
    · next h0 => exact .inr ⟨by omega, (Option.some.inj h).symm⟩
    · cases h

theorem IsFirstLeastUsed.singleton (b : Block) : IsFirstLeastUsed [b] 0 b where
  get := rfl
  least k d h := by
    rcases getElem?_concat_eq_some (bs := []) h with h | ⟨-, rfl⟩
    · cases h
    · exact le_rfl
  first _ _ hk := absurd hk (Nat.not_lt_zero _)

/-- A further way used strictly longer ago takes over. -/
theorem IsFirstLeastUsed.concat_of_lt {bs : List Block} {i : Nat} {b d : Block} (h : IsFirstLeastUsed bs i b)
    (hlt : d.lastUsed < b.lastUsed) : IsFirstLeastUsed (bs ++ [d]) bs.length d where
  get := List.getElem?_concat_length
  least k e he := by
    rcases getElem?_concat_eq_some he with he | ⟨-, rfl⟩
    · exact hlt.le.trans (h.least k e he)
    · exact le_rfl
  first k e hk he := by
    rcases getElem?_concat_eq_some he with he | ⟨rfl, -⟩
    · exact hlt.trans_le (h.least k e he)
    · exact absurd hk (lt_irrefl _)

/-- A further way used later, or at the same time, leaves the choice as it is. -/
theorem IsFirstLeastUsed.concat_of_le {bs : List Block} {i : Nat} {b d : Block} (h : IsFirstLeastUsed bs i b)
    (hle : b.lastUsed ≤ d.lastUsed) : IsFirstLeastUsed (bs ++ [d]) i b := by
  have hi : i < bs.length := (List.getElem?_eq_some_iff.1 h.get).1
  refine ⟨by rw [List.getElem?_append_left hi, h.get], fun k e he => ?_, fun k e hk he => ?_⟩
  · rcases getElem?_concat_eq_some he with he | ⟨-, rfl⟩
    · exact h.least k e he
    · exact hle
  · rcases getElem?_concat_eq_some he with he | ⟨rfl, -⟩
    · exact h.first k e hk he
    · exact absurd hk hi.not_gt

/-- The scan extends the choice among the ways `seen` to the choice among all ways. -/
theorem victimScan_isFirstLeastUsed {seen bs : List Block} {i : Nat} {b : Block} (h : IsFirstLeastUsed seen i b) :
    ∃ c, IsFirstLeastUsed (seen ++ bs) (victimScan i b.lastUsed seen.length bs) c := by
  induction bs generalizing seen i b with
  | nil => exact ⟨b, by simpa [victimScan] using h⟩
  | cons d bs ih =>
    rw [List.append_cons, victimScan]
    split
    · next hlt => simpa only [List.length_append, List.length_singleton] using ih (h.concat_of_lt hlt)
    · next hge => simpa only [List.length_append, List.length_singleton] using ih (h.concat_of_le (Nat.not_lt.1 hge))

theorem victim_isFirstLeastUsed {bs : List Block} (h : bs ≠ []) : ∃ b, IsFirstLeastUsed bs (victim bs) b := by
  cases bs with
  | nil => exact absurd rfl h
  | cons b bs => exact victimScan_isFirstLeastUsed (.singleton b)

/-- Settles O45: the scan starts at way 0 and keeps the first least recently used of the ways seen. -/
theorem victimIsTheFirstLeastRecentlyUsed : Obligations.VictimIsTheFirstLeastRecentlyUsed := by
  intro bs hne
  obtain ⟨b, hget, hleast, hfirst⟩ := victim_isFirstLeastUsed hne
  exact ⟨b, hget, hleast, hfirst⟩

/-- Settles O42: set and tag are remainder and quotient of the address, which determine it. -/
theorem addressSplitsIntoSetAndTag : Obligations.AddressSplitsIntoSetAndTag := fun c a _ =>
  ⟨rfl, c.tagOf_toNat a, (c.tag_set_addr a).symm, fun hs ht => c.addr_eq_of_tag_set ht hs⟩

end Sys2Proof.Machine
end

section
/-! SUPPORT. The opcode map read in both directions, decoding of R-form and I-form words, encoding of a decoded word, and
the proofs of O2, O3 and O1 (spec/30_encoding.md R108, R119 and R101). -/

namespace Sys2Proof

/-- The opcode map, class by class (R108): `classify_cases` in both directions. -/
theorem classify_eq_iff (o f : Op6) :
    (classify o f = .add ↔ o = 0x00#6 ∧ f = 0x20#6) ∧ (classify o f = .sub ↔ o = 0x00#6 ∧ f = 0x22#6) ∧
      (classify o f = .slt ↔ o = 0x00#6 ∧ f = 0x2A#6) ∧ (classify o f = .addi ↔ o = 0x08#6) ∧
      (classify o f = .beq ↔ o = 0x04#6) ∧ (classify o f = .lw ↔ o = 0x23#6) ∧ (classify o f = .sw ↔ o = 0x2B#6) ∧
      (classify o f = .unknown ↔
        (o = 0x00#6 ∧ f ≠ 0x20#6 ∧ f ≠ 0x22#6 ∧ f ≠ 0x2A#6) ∨
          (o ≠ 0x00#6 ∧ o ≠ 0x08#6 ∧ o ≠ 0x04#6 ∧ o ≠ 0x23#6 ∧ o ≠ 0x2B#6)) := by
  rcases classify_cases o f with ⟨h, rfl, rfl⟩ | ⟨h, rfl, rfl⟩ | ⟨h, rfl, rfl⟩ | ⟨h, rfl⟩ | ⟨h, rfl⟩ | ⟨h, rfl⟩ | ⟨h, rfl⟩ |
    ⟨h, rfl, hf⟩ | ⟨h, ho, hrest⟩
  case inr.inr.inr.inr.inr.inr.inr.inl =>
    have hf : f ≠ 0x20#6 ∧ f ≠ 0x22#6 ∧ f ≠ 0x2A#6 := by simpa [definedFuncts] using hf
    simp [h, hf]
  case inr.inr.inr.inr.inr.inr.inr.inr =>
    have ho : o ≠ 0x00#6 ∧ o ≠ 0x04#6 ∧ o ≠ 0x08#6 ∧ o ≠ 0x23#6 ∧ o ≠ 0x2B#6 := by
      simpa [definedOpcodes] using hrest
    simp [h, ho]
  all_goals simp [h]

/-- Under an opcode other than 0 the funct plays no part in the class (R108). -/
theorem classify_funct_irrelevant {o : Op6} (h : o ≠ 0x00#6) (f g : Op6) : classify o f = classify o g := by
  rw [classify, classify, if_neg h, if_neg h]

theorem classify_congr {o p f g : Op6} (ho : o = p) (hf : o = 0x00#6 → f = g) : classify o f = classify p g := by
  subst ho
  by_cases h0 : o = 0x00#6
  · rw [hf h0]
  · exact classify_funct_irrelevant h0 f g

/-- The class alone selects the instruction's form; the fields are those of the word (R106, R108). -/
theorem decode_of_cls {w : Word} {c : OpClass} (h : (decodeForm w).cls = c) :
    decode w = { decodeForm w with cls := c }.toInstr := by
  subst h
  rfl

/-- Settles O2: the map is `classify_eq_iff`, `classify_congr` says which bits take part, and `decode_of_cls` gives each
class its instruction. -/
theorem opcodeMapDecidesClass : Obligations.OpcodeMapDecidesClass :=
  ⟨fun w => classify_eq_iff (opcodeOf w) (functOf w), fun _ _ => classify_congr, fun _ =>
    ⟨decode_of_cls, decode_of_cls, decode_of_cls, decode_of_cls, decode_of_cls, decode_of_cls, decode_of_cls,
      fun h h0 => (decode_of_cls h).trans (if_pos h0), fun h h0 => (decode_of_cls h).trans (if_neg h0)⟩⟩

/-- Decoding an R-form word reads back the six fields put in (R102). -/
theorem decode_rForm (o : Op6) (rs rt rd : RegIdx) (sh : Shamt) (f : Op6) :
    decode (rForm o rs rt rd sh f) =
      DecodedForm.toInstr
        { cls := classify o f, opcode := o, rs := rs, rt := rt, rd := rd, shamt := sh, funct := f
          imm := immOf (rForm o rs rt rd sh f) } := by
  obtain ⟨ho, hrs, hrt, hrd, hsh, hf⟩ := rForm_fields o rs rt rd sh f
  simp only [decode, decodeForm, ho, hrs, hrt, hrd, hsh, hf]

/-- Decoding an I-form word reads back the four fields put in (R103); its low bits are also read as rd, shamt and funct. -/
theorem decode_iForm (o : Op6) (rs rt : RegIdx) (imm : Imm) :
    decode (iForm o rs rt imm) =
      DecodedForm.toInstr
        { cls := classify o (functOf (iForm o rs rt imm)), opcode := o, rs := rs, rt := rt
          rd := rdOf (iForm o rs rt imm), shamt := shamtOf (iForm o rs rt imm)
          funct := functOf (iForm o rs rt imm), imm := imm } := by
  obtain ⟨ho, hrs, hrt, himm⟩ := iForm_fields o rs rt imm
  simp only [decode, decodeForm, ho, hrs, hrt, himm]

/-- The canonical R-form word as R116 sums it, the funct first and no shamt. -/
theorem rForm_eq_canonical {n : Nat} {f : Op6} (h : n = f.toNat) (rs rt rd : RegIdx) :
    BitVec.ofNat 32 (n + 2 ^ 21 * rs.toNat + 2 ^ 16 * rt.toNat + 2 ^ 11 * rd.toNat) = rForm 0x00#6 rs rt rd 0#5 f := by
  subst h
  apply congrArg (BitVec.ofNat 32)
  simp only [BitVec.toNat_ofNat]
  omega

/-- The I-form word as R116 sums it, its opcode's share written as one number. -/
theorem iForm_eq_canonical {n : Nat} {o : Op6} (h : n = 2 ^ 26 * o.toNat) (rs rt : RegIdx) (imm : Imm) :
    BitVec.ofNat 32 (n + 2 ^ 21 * rs.toNat + 2 ^ 16 * rt.toNat + imm.toNat) = iForm o rs rt imm := by
  subst h
  rfl

/-- Every word, unsupported ones included, is the encoding of what it decodes to: each class writes back the opcode and
funct it stands for, and the instruction carries the word's other fields (R119). -/
theorem encode_decode (w : Word) : encode (decode w) = w := by
  have hr := rForm_of_fields w
  have hi := iForm_of_fields w
  rcases decode_cases w with ⟨h, ho, hf⟩ | ⟨h, ho, hf⟩ | ⟨h, ho, hf⟩ | ⟨h, ho⟩ | ⟨h, ho⟩ | ⟨h, ho⟩ | ⟨h, ho⟩ |
    ⟨h, ho, -⟩ | ⟨h, -⟩ <;> rw [h]
  · rwa [ho, hf] at hr
  · rwa [ho, hf] at hr
  · rwa [ho, hf] at hr
  · rwa [ho] at hi
  · rwa [ho] at hi
  · rwa [ho] at hi
  · rwa [ho] at hi
  · rwa [ho] at hr
  · exact hr

/-- Settles O3: a canonical word is an R-form or I-form word, from which decoding reads the fields back; the other
direction is `encode_decode`, which needs no premise on the class. -/
theorem encodingInvertsDecoding : Obligations.EncodingInvertsDecoding := by
  refine ⟨fun rs rt rd imm => ⟨?_, ?_, ?_, ?_, ?_, ?_, ?_⟩, fun w _ => encode_decode w⟩
  · rw [rForm_eq_canonical (n := 0x00000020) (f := 0x20#6) rfl]; exact decode_rForm ..
  · rw [rForm_eq_canonical (n := 0x00000022) (f := 0x22#6) rfl]; exact decode_rForm ..
  · rw [rForm_eq_canonical (n := 0x0000002A) (f := 0x2A#6) rfl]; exact decode_rForm ..
  · rw [iForm_eq_canonical (n := 0x20000000) (o := 0x08#6) rfl]; exact decode_iForm ..
  · rw [iForm_eq_canonical (n := 0x10000000) (o := 0x04#6) rfl]; exact decode_iForm ..
  · rw [iForm_eq_canonical (n := 0x8C000000) (o := 0x23#6) rfl]; exact decode_iForm ..
  · rw [iForm_eq_canonical (n := 0xAC000000) (o := 0x2B#6) rfl]; exact decode_iForm ..

/-- Settles O1: each field is a `slice`, whose number is the quotient and remainder the rule writes; the two fields that
start at bit 0 divide by 1. -/
theorem fieldsAreBitSlices : Obligations.FieldsAreBitSlices := fun w =>
  ⟨opcodeOf_toNat w, rsOf_toNat w, rtOf_toNat w, rdOf_toNat w, shamtOf_toNat w,
    by rw [functOf_toNat, Nat.div_one], by rw [immOf_toNat, Nat.div_one]⟩

end Sys2Proof
end

section
/-! SUPPORT. What a step reads at pc, that no instruction touches the halted flag or the cycle count, and when the end of a
step halts; the proofs of O11, O12, O9 and O14 (spec/40_step.md R131, R132, R134 to R136). -/

namespace Sys2Proof.Machine

theorem State.memPresent_eq_false {s : State} {a : Addr} : s.memPresent a = false ↔ s.entryAt a = none := by
  simp [State.memPresent]

/-! Fetch (R132). -/

theorem State.fetch_of_entry {s : State} {e : Entry} (h : s.entryAt s.pc = some e) : s.fetch = e.word := by
  rw [State.fetch, State.memRead_of_entry h, Option.getD_some]

theorem State.fetch_of_absent {s : State} (h : s.entryAt s.pc = none) : s.fetch = 0#32 := by
  rw [State.fetch, State.memRead_eq_none.2 h, Option.getD_none]

theorem State.fetch_congr {s t : State} (hmem : s.mem = t.mem) (hpc : s.pc = t.pc) : s.fetch = t.fetch := by
  rw [State.fetch, State.fetch, State.memRead, State.memRead, State.entryAt, State.entryAt, hmem, hpc]

/-- The word 0 is an unsupported funct (R113). -/
theorem decode_zero : decode 0#32 = .unknownFunct 0#5 0#5 0#5 0#5 0#6 := by decide

/-! The frame of a step (R131). -/

/-- The halted flag and the cycle count belong to the frame of the step: no instruction writes them (R131). -/
theorem exec_controlKept {i : Instr} {s t : State} (h : exec i s = .next t) : ControlKept s t := by
  cases i with
  | beq rs rt imm =>
    cases (exec_beq rs rt imm s).symm.trans h
    exact ⟨rfl, rfl⟩
  | lw rs rt imm =>
    rcases exec_lw_cases rs rt imm s with ⟨_, _, _, hu⟩ | ⟨_, _, _, hu⟩ | ⟨_, _, hu⟩ <;>
      (cases hu.symm.trans h; exact ⟨rfl, rfl⟩)
  | _ =>
    cases h
    exact ⟨rfl, rfl⟩

/-- The halt check (R135) as R131 writes it: the flag is set where the new pc is absent and else left as it is. -/
theorem State.finishStep_eq_ite (s : State) :
    s.finishStep = { s with cycles := s.cycles + 1, halted := if s.memPresent s.pc then s.halted else true } := by
  unfold State.finishStep
  cases s.memPresent s.pc <;> simp

/-- From a Running state the end of a step halts exactly where the new pc is absent (R135). -/
theorem State.finishStep_halted_iff {s : State} (h : s.halted = false) :
    s.finishStep.halted = true ↔ s.entryAt s.pc = none := by
  rw [State.finishStep_halted, h, Bool.false_or, Bool.not_eq_true', State.memPresent_eq_false]

/-- Settles O12: the step is `exec` and then `finishStep`, and `exec` hands on the cycle count and the Running state. -/
theorem stepCountsAndProbesTheNewPc : Obligations.StepCountsAndProbesTheNewPc := by
  intro s t hrun hstep
  rcases step_next_cases hstep with ⟨hhalt, -⟩ | ⟨-, u, hu, rfl⟩
  · simp [hrun] at hhalt
  · obtain ⟨hhalted, hcycles⟩ := exec_controlKept hu
    exact ⟨u, hu, rfl, rfl, rfl, rfl, congrArg (· + 1) hcycles, u.finishStep_halted_iff (hhalted.trans hrun)⟩

/-- R132 at an absent pc: the step executes the word 0, which advances pc. -/
theorem step_of_absent {s : State} (h : s.halted = false) (habs : s.entryAt s.pc = none) :
    step s = .next s.advancePc.finishStep :=
  step_running h (by rw [State.fetch_of_absent habs, decode_zero, exec_unknownFunct])

/-- Settles O14: an absent pc by `step_of_absent`, a present one by `State.fetch_of_entry`, and the last clause by
`State.fetch_congr`. -/
theorem fetchDefaultsToWordZero : Obligations.FetchDefaultsToWordZero := by
  refine ⟨fun s h habs => ?_, fun s u w k h he hu => ?_, fun s t => State.fetch_congr⟩
  · exact ⟨_, step_of_absent h habs, rfl, nextPc_toNat s.pc, rfl, rfl, rfl,
      State.finishStep_halted_iff (s := s.advancePc) h⟩
  · have hw : s.fetch = w := State.fetch_of_entry he
    exact ⟨hw, step_running h (hw ▸ hu)⟩

/-! The trace channel (R136, R142). -/

theorem State.traceEvent_of_halted {s : State} (h : s.halted = true) : s.traceEvent = none := if_pos h

theorem State.traceEvent_of_running {s : State} (h : s.halted = false) :
    s.traceEvent = some { pc := s.pc, word := s.fetch, decoded := decodeForm s.fetch } := if_neg (by simp [h])

/-- Settles O11: on a Halted engine both the step and its event take the first branch. -/
theorem haltedStepChangesNothing : Obligations.HaltedStepChangesNothing := fun _ h =>
  ⟨step_halted h, State.traceEvent_of_halted h⟩

/-- Settles O9: the Halted clause is O11; the Running one is `step_running`, its halt check written as R131 does. -/
theorem stepFollowsItsLines : Obligations.StepFollowsItsLines := by
  refine fun s => ⟨haltedStepChangesNothing s, fun h => ⟨?_, fun t ht => ?_⟩⟩
  · rw [State.traceEvent_of_running h, Option.isSome_some]
  · rw [← State.finishStep_eq_ite]
    exact step_running h ht

end Sys2Proof.Machine
end

section
/-! SUPPORT. Which words decode to an instruction with their own fields, what the four arithmetic results are as numbers,
and the frame the four arithmetic instructions share; the proofs of O24 to O27 (spec/41_alu.md R150 to R153). -/

namespace Sys2Proof

/-! Words and their instructions: no two words decode alike (R119), so a word decodes to an instruction exactly when it is
that instruction's encoding. -/

theorem decode_eq_iff {w v : Word} {i : Instr} (hdec : decode v = i) (henc : encode i = v) : decode w = i ↔ w = v := by
  refine ⟨fun h => ?_, fun h => ?_⟩
  · rw [← henc, ← h, encode_decode]
  · rw [h, hdec]

theorem eq_rForm_iff (w : Word) (o f : Op6) :
    w = rForm o (rsOf w) (rtOf w) (rdOf w) (shamtOf w) f ↔ opcodeOf w = o ∧ functOf w = f := by
  obtain ⟨ho, hrs, hrt, hrd, hsh, hf⟩ := rForm_fields o (rsOf w) (rtOf w) (rdOf w) (shamtOf w) f
  rw [word_eq_iff_fields, ho, hrs, hrt, hrd, hsh, hf]
  simp

theorem eq_iForm_iff (w : Word) (o : Op6) : w = iForm o (rsOf w) (rtOf w) (immOf w) ↔ opcodeOf w = o := by
  refine ⟨fun h => ?_, fun h => ?_⟩
  · rw [h, (iForm_fields ..).1]
  · rw [← h, iForm_of_fields]

theorem decode_eq_add_iff (w : Word) :
    decode w = .add (rsOf w) (rtOf w) (rdOf w) (shamtOf w) ↔ opcodeOf w = 0x00#6 ∧ functOf w = 0x20#6 := by
  rw [← eq_rForm_iff]
  exact decode_eq_iff (decode_rForm ..) rfl

theorem decode_eq_sub_iff (w : Word) :
    decode w = .sub (rsOf w) (rtOf w) (rdOf w) (shamtOf w) ↔ opcodeOf w = 0x00#6 ∧ functOf w = 0x22#6 := by
  rw [← eq_rForm_iff]
  exact decode_eq_iff (decode_rForm ..) rfl

theorem decode_eq_slt_iff (w : Word) :
    decode w = .slt (rsOf w) (rtOf w) (rdOf w) (shamtOf w) ↔ opcodeOf w = 0x00#6 ∧ functOf w = 0x2A#6 := by
  rw [← eq_rForm_iff]
  exact decode_eq_iff (decode_rForm ..) rfl

theorem decode_eq_addi_iff (w : Word) :
    decode w = .addi (rsOf w) (rtOf w) (immOf w) ↔ opcodeOf w = 0x08#6 := by
  rw [← eq_iForm_iff]
  exact decode_eq_iff (decode_iForm ..) rfl

end Sys2Proof

namespace Sys2Proof.Machine

/-! The four results as numbers. -/

theorem add32_toNat (a b : Word) : (add32 a b).toNat = (a.toNat + b.toNat) % 2 ^ 32 := by
  rw [add32_eq, BitVec.toNat_add]

/-- The wrapped difference, written so that no subtraction of natural numbers is cut off (R151). -/
theorem sub32_toNat (a b : Word) : (sub32 a b).toNat = (a.toNat + 2 ^ 32 - b.toNat) % 2 ^ 32 := by
  have hb := b.isLt
  have hswap : 2 ^ 32 - b.toNat + a.toNat = a.toNat + 2 ^ 32 - b.toNat := by omega
  rw [sub32_eq, BitVec.toNat_sub, hswap]

theorem setLess_eq_ite_toInt (a b : Word) : setLess a b = if a.toInt < b.toInt then 1#32 else 0#32 := by
  simp only [setLess_eq, BitVec.slt_iff_toInt_lt]

theorem addImm32_toNat (a : Word) (imm : Imm) :
    ((addImm32 a imm).toNat : Int) = ((a.toNat : Int) + imm.toInt) % 2 ^ 32 := by
  rw [addImm32, trunc_toNat, signed_eq_toInt (by decide)]

/-! The shape the four share: a result in one register, then the sequential successor (R155). -/

theorem State.readReg_advancePc_writeReg_same (s : State) (d : RegIdx) (v : Word) :
    (s.writeReg d v).advancePc.readReg d = v := by
  simp

theorem regsKeptBut_writeReg_advancePc (s : State) (d : RegIdx) (v : Word) :
    RegsKeptBut d s (s.writeReg d v).advancePc := fun _ hr => s.readReg_writeReg_other v hr.symm

/-- The frame of a register write and the program counter's advance: all that R150 to R153 say an instruction leaves. -/
theorem frame_writeReg_advancePc (s : State) (d : RegIdx) (v : Word) :
    RegsKeptBut d s (s.writeReg d v).advancePc ∧ PcAdvanced s (s.writeReg d v).advancePc ∧
      ControlKept s (s.writeReg d v).advancePc ∧ MemKept s (s.writeReg d v).advancePc ∧
      (s.writeReg d v).advancePc.cache = s.cache :=
  ⟨regsKeptBut_writeReg_advancePc s d v, nextPc_toNat s.pc, ⟨rfl, rfl⟩, fun _ => rfl, rfl⟩

/-- Settles O24: the row's mask selects opcode and funct, and the sum is `add32_toNat`. -/
theorem addWritesTheWrappedSum : Obligations.AddWritesTheWrappedSum := by
  refine ⟨fun w => (mask_add w).trans (decode_eq_add_iff w).symm, fun rs rt rd shamt s =>
    ⟨_, exec_add .., ?_, frame_writeReg_advancePc ..⟩⟩
  rw [State.readReg_advancePc_writeReg_same, add32_toNat]

/-- Settles O25: the row's mask selects opcode and funct, and the difference is `sub32_toNat`. -/
theorem subWritesTheWrappedDifference : Obligations.SubWritesTheWrappedDifference := by
  refine ⟨fun w => (mask_sub w).trans (decode_eq_sub_iff w).symm, fun rs rt rd shamt s =>
    ⟨_, exec_sub .., ?_, frame_writeReg_advancePc ..⟩⟩
  rw [State.readReg_advancePc_writeReg_same, sub32_toNat]

/-- Settles O26: the result is a branch on the two's-complement integers, one clause for each side. -/
theorem sltComparesSignedValues : Obligations.SltComparesSignedValues := by
  refine ⟨fun w => (mask_slt w).trans (decode_eq_slt_iff w).symm, fun rs rt rd shamt s =>
    ⟨_, exec_slt .., fun hlt => ?_, fun hge => ?_, frame_writeReg_advancePc ..⟩⟩
  · rw [State.readReg_advancePc_writeReg_same, setLess_eq_ite_toInt, if_pos hlt]
  · rw [State.readReg_advancePc_writeReg_same, setLess_eq_ite_toInt, if_neg hge]

/-- Settles O27: the row's mask selects the opcode; the result is read as an integer by `addImm32_toNat` and as a word by
`addImm32_eq`. -/
theorem addiAddsTheSignedImmediate : Obligations.AddiAddsTheSignedImmediate := by
  refine ⟨fun w => (mask_addi w).trans (decode_eq_addi_iff w).symm, fun rs rt imm s =>
    ⟨_, exec_addi .., ?_, ?_, frame_writeReg_advancePc ..⟩⟩
  · rw [State.readReg_advancePc_writeReg_same, addImm32_toNat]
  · rw [State.readReg_advancePc_writeReg_same, addImm32_eq]

end Sys2Proof.Machine
end

section
/-! SUPPORT. The effective address as a number: by the signed displacement, and by the low bytes of its two operands; the
proof of O33 (spec/43_loadstore.md R170). -/

namespace Sys2Proof.Machine

/-- The signed and the unsigned reading of a bit vector differ by 0 or by `2^n`, so they agree modulo every smaller power
of two (R13). -/
theorem toInt_emod_two_pow {m n : Nat} (h : m ≤ n) (v : BitVec n) : v.toInt % 2 ^ m = (v.toNat : Int) % 2 ^ m := by
  have hdvd : (2 ^ m : Int) ∣ ((2 ^ n : Nat) : Int) := by
    rw [Nat.cast_pow]
    exact pow_dvd_pow 2 h
  rw [BitVec.toInt_eq_toNat_bmod, ← Int.emod_emod_of_dvd _ hdvd, Int.bmod_emod, Int.emod_emod_of_dvd _ hdvd]

theorem effectiveAddr_toNat (base : Word) (imm : Imm) :
    ((effectiveAddr base imm).toNat : Int) = ((base.toNat : Int) + imm.toInt) % 256 := by
  rw [effectiveAddr, trunc_toNat, signed_eq_toInt (by decide)]
  rfl

/-- Only the low bytes of the base and of the immediate reach the address, and the immediate's sign does not (R170). -/
theorem effectiveAddr_toNat_eq_lowBytes (base : Word) (imm : Imm) :
    (effectiveAddr base imm).toNat = (base.toNat % 256 + imm.toNat % 256) % 256 := by
  have haddr := effectiveAddr_toNat base imm
  have himm : imm.toInt % 256 = (imm.toNat : Int) % 256 := toInt_emod_two_pow (m := 8) (by decide) imm
  omega

/-- Settles O33: the integer formula is `effectiveAddr_toNat`, the low-byte form `effectiveAddr_toNat_eq_lowBytes`. -/
theorem effectiveAddressIsLowByteOfSum : Obligations.EffectiveAddressIsLowByteOfSum := fun base imm =>
  ⟨effectiveAddr_toNat base imm, effectiveAddr_toNat_eq_lowBytes base imm⟩

end Sys2Proof.Machine
end

section
/-! SUPPORT. Which words are unsupported and what they decode to, and what an instruction that only advances pc changes and
keeps; the proofs of O40 and O41 (spec/44_unsupported.md R180 and R181). -/

namespace Sys2Proof

/-- The two kinds of unsupported word (R108); opcode 0 is a defined opcode, so they exclude each other. -/
theorem classify_eq_unknown_iff (o f : Op6) :
    classify o f = .unknown ↔ (o = 0x00#6 ∧ f ∉ definedFuncts) ∨ o ∉ definedOpcodes := by
  obtain ⟨-, -, -, -, -, -, -, hunknown⟩ := classify_eq_iff o f
  rw [hunknown]
  simp only [definedFuncts, definedOpcodes, List.mem_cons, List.not_mem_nil, or_false, not_or]
  tauto

/-- An unsupported funct, with the word's own fields (R106, R180). -/
theorem decode_of_unknown_funct {w : Word} (ho : opcodeOf w = 0x00#6) (hf : functOf w ∉ definedFuncts) :
    decode w = .unknownFunct (rsOf w) (rtOf w) (rdOf w) (shamtOf w) (functOf w) :=
  (decode_of_cls ((classify_eq_unknown_iff ..).2 (.inl ⟨ho, hf⟩))).trans (if_pos ho)

/-- An unsupported opcode, with the word's own fields (R106, R181). -/
theorem decode_of_unknown_opcode {w : Word} (ho : opcodeOf w ∉ definedOpcodes) :
    decode w = .unknownOpcode (opcodeOf w) (rsOf w) (rtOf w) (rdOf w) (shamtOf w) (functOf w) := by
  have hne : opcodeOf w ≠ 0x00#6 := fun h0 => ho (by rw [h0]; decide)
  exact (decode_of_cls ((classify_eq_unknown_iff ..).2 (.inr ho))).trans (if_neg hne)

end Sys2Proof

namespace Sys2Proof.Machine

/-- The frame of the program counter's advance: all that R180 and R181 say an unsupported word leaves. -/
theorem frame_advancePc (s : State) :
    PcAdvanced s s.advancePc ∧ RegsKept s s.advancePc ∧ ControlKept s s.advancePc ∧ MemKept s s.advancePc ∧
      s.advancePc.cache = s.cache :=
  ⟨nextPc_toNat s.pc, s.readReg_advancePc, ⟨rfl, rfl⟩, fun _ => rfl, rfl⟩

/-- The step of an instruction that only advances pc counts its cycle (R134) and probes the new pc in the memory it found
(R135). -/
theorem step_frame_of_exec_advancePc {s t : State} (hrun : s.halted = false)
    (hexec : exec (decode s.fetch) s = .next s.advancePc) (hstep : step s = .next t) :
    t.cycles = s.cycles + 1 ∧ (t.halted = true ↔ s.entryAt t.pc = none) := by
  cases (step_running hrun hexec).symm.trans hstep
  exact ⟨rfl, State.finishStep_halted_iff (s := s.advancePc) hrun⟩

/-- Settles O40: the row's mask selects opcode 0, and both the effect and the step are those of `advancePc`. -/
theorem unknownFunctOnlyAdvancesPc : Obligations.UnknownFunctOnlyAdvancesPc := by
  refine ⟨fun w hmask => decode_of_unknown_funct ((mask_unknownFunct w).1 hmask), fun rs rt rd shamt funct s =>
    ⟨_, exec_unknownFunct .., frame_advancePc s⟩, fun rs rt rd shamt funct s t hrun hdec => ?_⟩
  exact step_frame_of_exec_advancePc hrun (by rw [hdec, exec_unknownFunct])

/-- Settles O41: no defined opcode is the word's, and both the effect and the step are those of `advancePc`. -/
theorem unknownOpcodeOnlyAdvancesPc : Obligations.UnknownOpcodeOnlyAdvancesPc := by
  refine ⟨fun w => decode_of_unknown_opcode, fun opcode rs rt rd shamt funct s =>
    ⟨_, exec_unknownOpcode .., frame_advancePc s⟩, fun opcode rs rt rd shamt funct s t hrun hdec => ?_⟩
  exact step_frame_of_exec_advancePc hrun (by rw [hdec, exec_unknownOpcode])

end Sys2Proof.Machine
end

section
/-! SUPPORT. That every instruction and every step answers a next state, what a host's load leaves of Backing Memory, and
what the host's calls are as operations on the state; the proofs of O13, O21 and O22 (spec/60_exceptions.md R190, R201 and
R204). -/

namespace Sys2Proof.Machine

/-- No instruction faults or is refused, on any state (R190). -/
theorem exec_answers_next (i : Instr) (s : State) : ∃ t, exec i s = .next t := by
  cases i with
  | add rs rt rd shamt => exact ⟨_, exec_add rs rt rd shamt s⟩
  | sub rs rt rd shamt => exact ⟨_, exec_sub rs rt rd shamt s⟩
  | slt rs rt rd shamt => exact ⟨_, exec_slt rs rt rd shamt s⟩
  | addi rs rt imm => exact ⟨_, exec_addi rs rt imm s⟩
  | beq rs rt imm => exact ⟨_, exec_beq rs rt imm s⟩
  | lw rs rt imm =>
    rcases exec_lw_cases rs rt imm s with ⟨_, _, _, hhit⟩ | ⟨_, _, _, hpresent⟩ | ⟨_, _, habsent⟩
    · exact ⟨_, hhit⟩
    · exact ⟨_, hpresent⟩
    · exact ⟨_, habsent⟩
  | sw rs rt imm => exact ⟨_, exec_sw rs rt imm s⟩
  | unknownFunct rs rt rd shamt funct => exact ⟨_, exec_unknownFunct rs rt rd shamt funct s⟩
  | unknownOpcode opcode rs rt rd shamt funct => exact ⟨_, exec_unknownOpcode opcode rs rt rd shamt funct s⟩

/-- No step faults or is refused, and a Halted one stays where it is (R136, R190). -/
theorem step_answers_next (s : State) : ∃ t, step s = .next t ∧ (s.halted = true → t = s) := by
  cases hs : s.halted with
  | true => exact ⟨s, step_halted hs, fun _ => rfl⟩
  | false =>
    obtain ⟨u, hu⟩ := exec_answers_next (decode s.fetch) s
    exact ⟨u.finishStep, step_running hs hu, nofun⟩

/-- Settles O13: instruction by instruction in `exec_answers_next`, from which the step has it. -/
theorem everyStepAnswersANextState : Obligations.EveryStepAnswersANextState :=
  ⟨exec_answers_next, step_answers_next⟩

/-! The host's calls (R201, R204). -/

theorem hostApply_load (a : Addr) (w : Word) (k : Kind) (s : State) :
    hostApply (.load a w k) s = .next (s.memWrite a w k) := rfl

theorem hostApply_cacheRead (a : Addr) (s : State) :
    hostApply (.cacheRead a) s = .next (s.withCache (s.cache.read a).2) := rfl

theorem hostApply_cacheWrite (a : Addr) (v : Word) (s : State) :
    hostApply (.cacheWrite a v) s = .next (s.withCache (s.cache.write a v)) := rfl

/-- A memory write keeps every other address (R54). -/
theorem memKeptBut_memWrite (s : State) (a : Addr) (w : Word) (k : Kind) : MemKeptBut a s (s.memWrite a w k) :=
  fun _ hb => s.entryAt_memWrite_other w k hb

/-- Settles O21: a load is one `memWrite`, whose laws give the entry, the other addresses and the other fields. -/
theorem loadWritesOneEntryOnly : Obligations.LoadWritesOneEntryOnly := fun a w k s =>
  ⟨s.memWrite a w k, hostApply_load a w k s, s.entryAt_memWrite_same a w k, memKeptBut_memWrite s a w k,
    s.memWrite_regs a w k, s.memWrite_pc a w k, s.memWrite_halted a w k, s.memWrite_cycles a w k,
    s.memWrite_cache a w k⟩

/-- Settles O22: each call answers the controller's value and puts the controller's cache in the state. -/
theorem hostCacheCallsTouchTheCacheOnly : Obligations.HostCacheCallsTouchTheCacheOnly := fun a v s =>
  ⟨s.cacheRead_fst a, hostApply_cacheRead a s, hostApply_cacheWrite a v s⟩

end Sys2Proof.Machine
end

section
/-! SUPPORT. What the host's reset answers, and that a word the host loads at pc is the word fetched; the proof of O19
(spec/70_reset_and_hazards.md R212). -/

namespace Sys2Proof.Machine

/-- Reset answers the fresh state, whatever state it is asked in (R202, R211). -/
theorem hostApply_reset (cfg : CacheConfig) (s : State) :
    hostApply (.reset cfg) s = .next (State.resetWith cfg) := rfl

@[simp] theorem State.resetWith_pc (cfg : CacheConfig) : (State.resetWith cfg).pc = 0#8 := rfl
@[simp] theorem State.resetWith_halted (cfg : CacheConfig) : (State.resetWith cfg).halted = false := rfl

/-- A fetch does not look at the kind of the entry at pc (R51, R132), so a load of either kind there is seen. -/
theorem State.fetch_hostLoad_of_pc_eq {s : State} {a : Addr} (w : Word) (k : Kind) (hpc : s.pc = a) :
    (hostLoad a w k s).fetch = w := by
  subst hpc
  exact State.fetch_of_entry (s.entryAt_memWrite_same s.pc w k)

theorem State.halted_hostLoad (a : Addr) (w : Word) (k : Kind) (s : State) :
    (hostLoad a w k s).halted = s.halted := s.memWrite_halted a w k

/-- Settles O19: reset puts pc at 0 in a Running engine, and a load at that pc is what the fetch reads. -/
theorem resetStartsAtAddressZero : Obligations.ResetStartsAtAddressZero := fun cfg s =>
  have hpc : (State.resetWith cfg).pc = 0#8 := State.resetWith_pc cfg
  have hrunning : (State.resetWith cfg).halted = false := State.resetWith_halted cfg
  ⟨State.resetWith cfg, hostApply_reset cfg s, hpc, hrunning, fun w k =>
    ⟨State.fetch_hostLoad_of_pc_eq w k hpc, (State.halted_hostLoad 0#8 w k _).trans hrunning⟩⟩

end Sys2Proof.Machine
end

section
/-! SUPPORT. Decoding of an encoded term, well-formedness of a decoded one, the opcode table's rows against each other, and
how many words a set of opcodes and functs has; the proofs of O4 to O8 (spec/30_encoding.md R102, R103, R111 and R118). -/

namespace Sys2Proof

theorem wellFormed_unknownFunct_iff {rs rt rd : RegIdx} {sh : Shamt} {f : Op6} :
    (Instr.unknownFunct rs rt rd sh f).wellFormed = true ↔ f ∉ definedFuncts := by
  simp [Instr.wellFormed]

theorem wellFormed_unknownOpcode_iff {o : Op6} {rs rt rd : RegIdx} {sh : Shamt} {f : Op6} :
    (Instr.unknownOpcode o rs rt rd sh f).wellFormed = true ↔ o ∉ definedOpcodes := by
  simp [Instr.wellFormed]

/-- Settles O4: a defined row's class is known from its opcode and funct, and an unsupported term's from its
well-formedness; the fields are read back by `decode_rForm` and `decode_iForm`. -/
theorem decodeOfEncodeIsIdentity : Obligations.DecodeOfEncodeIsIdentity := by
  intro i hwf
  cases i with
  | add rs rt rd sh => exact decode_rForm ..
  | sub rs rt rd sh => exact decode_rForm ..
  | slt rs rt rd sh => exact decode_rForm ..
  | addi rs rt imm => exact decode_iForm ..
  | beq rs rt imm => exact decode_iForm ..
  | lw rs rt imm => exact decode_iForm ..
  | sw rs rt imm => exact decode_iForm ..
  | unknownFunct rs rt rd sh f =>
    obtain ⟨ho, hrs, hrt, hrd, hsh, hf⟩ := rForm_fields 0x00#6 rs rt rd sh f
    have hdec := decode_of_unknown_funct ho (hf.symm ▸ wellFormed_unknownFunct_iff.1 hwf)
    rwa [hrs, hrt, hrd, hsh, hf] at hdec
  | unknownOpcode o rs rt rd sh f =>
    obtain ⟨ho, hrs, hrt, hrd, hsh, hf⟩ := rForm_fields o rs rt rd sh f
    have hdec := decode_of_unknown_opcode (ho.symm ▸ wellFormed_unknownOpcode_iff.1 hwf)
    rwa [ho, hrs, hrt, hrd, hsh, hf] at hdec

/-- The decoder's answer is always a well-formed term: an unsupported one carries a funct or an opcode that is not defined
(R180, R181). -/
theorem decode_wellFormed (w : Word) : (decode w).wellFormed = true := by
  rcases decode_cases w with ⟨h, -⟩ | ⟨h, -⟩ | ⟨h, -⟩ | ⟨h, -⟩ | ⟨h, -⟩ | ⟨h, -⟩ | ⟨h, -⟩ | ⟨h, -, hf⟩ | ⟨h, -, ho⟩ <;>
    rw [h]
  case inr.inr.inr.inr.inr.inr.inr.inl => exact wellFormed_unknownFunct_iff.2 (by simpa using hf)
  case inr.inr.inr.inr.inr.inr.inr.inr => exact wellFormed_unknownOpcode_iff.2 (by simpa using ho)
  all_goals rfl

/-- Settles O5: `decode_wellFormed`, and `encode_decode` for the word. -/
theorem encodeOfDecodeIsIdentity : Obligations.EncodeOfDecodeIsIdentity := fun w =>
  ⟨decode_wellFormed w, encode_decode w⟩

/-! The opcode table (R118). -/

/-- The family `OwnRow`, one lemma per constructor, put together. -/
theorem tableMnemonic_encode {i : Instr} (hwf : i.wellFormed = true) : tableMnemonic (encode i) = some i.mnemonic := by
  cases i with
  | add rs rt rd sh => exact Laws.OwnRow.add rs rt rd sh hwf
  | sub rs rt rd sh => exact Laws.OwnRow.sub rs rt rd sh hwf
  | slt rs rt rd sh => exact Laws.OwnRow.slt rs rt rd sh hwf
  | addi rs rt imm => exact Laws.OwnRow.addi rs rt imm hwf
  | beq rs rt imm => exact Laws.OwnRow.beq rs rt imm hwf
  | lw rs rt imm => exact Laws.OwnRow.lw rs rt imm hwf
  | sw rs rt imm => exact Laws.OwnRow.sw rs rt imm hwf
  | unknownFunct rs rt rd sh f => exact Laws.OwnRow.unknownFunct rs rt rd sh f hwf
  | unknownOpcode o rs rt rd sh f => exact Laws.OwnRow.unknownOpcode o rs rt rd sh f hwf

/-- Two rows that cover one word agree on the bits that both masks select. -/
theorem OpcodeRow.bits_agree_of_covers {p q : OpcodeRow} {w : Word} (hp : p.covers w = true) (hq : q.covers w = true) :
    p.bits &&& q.mask = q.bits &&& p.mask := by
  rw [OpcodeRow.covers, beq_iff_eq] at hp hq
  rw [← hp, ← hq, BitVec.and_assoc, BitVec.and_assoc, BitVec.and_comm p.mask]

/-- No two of the seven defined rows agree on the bits that both masks select: a check of the table alone. -/
theorem definedRows_eq_of_bits_agree :
    ∀ p ∈ opcodeRows.take 7, ∀ q ∈ opcodeRows.take 7, p.bits &&& q.mask = q.bits &&& p.mask → p = q := by
  decide

/-- Settles O6: a word is the encoding of the well-formed instruction it decodes to, whose row is its own; and two defined
rows that cover one word agree where both look, so they are one row. -/
theorem firstMatchingRowIsTheDecoded : Obligations.FirstMatchingRowIsTheDecoded := by
  refine ⟨fun w => ?_, fun w p q hp hq hpw hqw =>
    definedRows_eq_of_bits_agree p hp q hq (OpcodeRow.bits_agree_of_covers hpw hqw)⟩
  have hrow := tableMnemonic_encode (decode_wellFormed w)
  rwa [encode_decode] at hrow

/-! How many words each class has (R111). -/

/-- A word as opcode and funct, which decide its class, and the four fields between them, which do not (R102, R108). -/
def wordFieldsEquiv : Word ≃ (Op6 × Op6) × (RegIdx × RegIdx × RegIdx × Shamt) where
  toFun w := ((opcodeOf w, functOf w), (rsOf w, rtOf w, rdOf w, shamtOf w))
  invFun x := rForm x.1.1 x.2.1 x.2.2.1 x.2.2.2.1 x.2.2.2.2 x.1.2
  left_inv := rForm_of_fields
  right_inv := fun ⟨⟨o, f⟩, rs, rt, rd, sh⟩ => by
    obtain ⟨ho, hrs, hrt, hrd, hsh, hf⟩ := rForm_fields o rs rt rd sh f
    simp only [ho, hrs, hrt, hrd, hsh, hf]

theorem card_bitVec (n : Nat) : Fintype.card (BitVec n) = 2 ^ n := by
  rw [Fintype.card_congr BitVec.equivFin.toEquiv, Fintype.card_fin]

/-- Each pair of opcode and funct stands in `2^20` words. -/
theorem card_words_of_opcode_funct (S : Finset (Op6 × Op6)) :
    Nat.card { w : Word // (opcodeOf w, functOf w) ∈ S } = S.card * 2 ^ 20 := by
  have hpairs : Nat.card { x : (Op6 × Op6) × (RegIdx × RegIdx × RegIdx × Shamt) // x.1 ∈ S } =
      (S ×ˢ (Finset.univ : Finset (RegIdx × RegIdx × RegIdx × Shamt))).card :=
    Nat.subtype_card _ fun x => by simp
  have hfields : Fintype.card (RegIdx × RegIdx × RegIdx × Shamt) = 2 ^ 20 := by
    rw [Fintype.card_prod, Fintype.card_prod, Fintype.card_prod, card_bitVec]
    norm_num
  calc Nat.card { w : Word // (opcodeOf w, functOf w) ∈ S }
      = Nat.card { x : (Op6 × Op6) × (RegIdx × RegIdx × RegIdx × Shamt) // x.1 ∈ S } :=
        Nat.card_congr (wordFieldsEquiv.subtypeEquiv fun _ => Iff.rfl)
    _ = S.card * 2 ^ 20 := by rw [hpairs, Finset.card_product, Finset.card_univ, hfields]

/-- The pairs of opcode and funct of a class (R108). -/
def classPairs : OpClass → Finset (Op6 × Op6)
  | .add => {0x00#6} ×ˢ {0x20#6}
  | .sub => {0x00#6} ×ˢ {0x22#6}
  | .slt => {0x00#6} ×ˢ {0x2A#6}
  | .addi => {0x08#6} ×ˢ Finset.univ
  | .beq => {0x04#6} ×ˢ Finset.univ
  | .lw => {0x23#6} ×ˢ Finset.univ
  | .sw => {0x2B#6} ×ˢ Finset.univ
  | .unknown => {0x00#6} ×ˢ definedFuncts.toFinsetᶜ ∪ definedOpcodes.toFinsetᶜ ×ˢ Finset.univ

theorem classify_eq_iff_mem_classPairs (o f : Op6) (c : OpClass) : classify o f = c ↔ (o, f) ∈ classPairs c := by
  obtain ⟨hadd, hsub, hslt, haddi, hbeq, hlw, hsw, -⟩ := classify_eq_iff o f
  have hunknown := classify_eq_unknown_iff o f
  cases c <;> simp only [classPairs, Finset.mem_union, Finset.mem_product, Finset.mem_singleton, Finset.mem_univ,
    Finset.mem_compl, List.mem_toFinset, and_true]
  exacts [hadd, hsub, hslt, haddi, hbeq, hlw, hsw, hunknown]

/-- Under opcode 0 every funct but three, and every opcode but five with any funct (R111). -/
theorem card_classPairs_unknown : (classPairs .unknown).card = 61 + 59 * 64 := by
  have hdisj : Disjoint ({0x00#6} ×ˢ definedFuncts.toFinsetᶜ : Finset (Op6 × Op6))
      (definedOpcodes.toFinsetᶜ ×ˢ Finset.univ) :=
    Finset.disjoint_product.2 (.inl (by decide))
  have hfuncts : definedFuncts.toFinset.card = 3 := by decide
  have hopcodes : definedOpcodes.toFinset.card = 5 := by decide
  rw [classPairs, Finset.card_union_of_disjoint hdisj, Finset.card_product, Finset.card_product, Finset.card_compl,
    Finset.card_compl, Finset.card_univ, card_bitVec, hfuncts, hopcodes, Finset.card_singleton, one_mul]
  norm_num

theorem card_words_of_class {c : OpClass} {n : Nat} (h : (classPairs c).card = n) :
    Nat.card { w : Word // (decodeForm w).cls = c } = n * 2 ^ 20 := by
  rw [← h, ← card_words_of_opcode_funct]
  exact Nat.card_congr (Equiv.subtypeEquivRight fun w => classify_eq_iff_mem_classPairs (opcodeOf w) (functOf w) c)

/-- A class of one funct under opcode 0. -/
theorem card_words_of_funct_class {c : OpClass} {f : Op6} (h : classPairs c = {0x00#6} ×ˢ ({f} : Finset Op6)) :
    Nat.card { w : Word // (decodeForm w).cls = c } = 2 ^ 20 := by
  rw [card_words_of_class (n := 1), one_mul]
  rw [h, Finset.card_product, Finset.card_singleton, Finset.card_singleton]

/-- A class of one opcode with any funct. -/
theorem card_words_of_opcode_class {c : OpClass} {o : Op6} (h : classPairs c = {o} ×ˢ Finset.univ) :
    Nat.card { w : Word // (decodeForm w).cls = c } = 2 ^ 26 := by
  rw [card_words_of_class (n := 2 ^ 6), ← pow_add]
  rw [h, Finset.card_product, Finset.card_singleton, Finset.card_univ, card_bitVec, one_mul]

/-- Settles O7: a class has `2^20` words for each of its pairs of opcode and funct. -/
theorem classesHaveTheCountedWords : Obligations.ClassesHaveTheCountedWords :=
  ⟨card_words_of_funct_class rfl, card_words_of_funct_class rfl, card_words_of_funct_class rfl,
    card_words_of_opcode_class rfl, card_words_of_opcode_class rfl, card_words_of_opcode_class rfl,
    card_words_of_opcode_class rfl, (card_words_of_class card_classPairs_unknown).trans (by norm_num)⟩

/-- Settles O8: each word's fields are computed. -/
theorem sampleWordsDecode : Obligations.SampleWordsDecode := by
  refine ⟨?_, ?_, ?_, ?_, ?_, ?_, ?_, ?_, ?_⟩ <;> decide

end Sys2Proof
end

section
/-! SUPPORT. What every instruction does, said once for all of them: the register it writes and its value, the new pc, and
its effect on Backing Memory and cache; the proofs of O32, O38 and O48 to O50 (spec/10_state.md R22 and R25,
spec/40_step.md R138, spec/43_loadstore.md R173, spec/20_memory.md R50). -/

namespace Sys2Proof.Machine

/-- The word a LW takes from address a: the cached one, or memory's with 0 for an absent address (R171). -/
def State.loadWord (s : State) (a : Addr) : Word :=
  match s.cache.find a with
  | some (_, b) => b.data
  | none => (s.memRead a).getD 0#32

theorem State.loadWord_of_hit {s : State} {a : Addr} {j : Nat} {b : Block} (h : s.cache.find a = some (j, b)) :
    s.loadWord a = b.data := by
  rw [State.loadWord, h]

theorem State.loadWord_of_miss {s : State} {a : Addr} (h : s.cache.find a = none) :
    s.loadWord a = (s.memRead a).getD 0#32 := by
  rw [State.loadWord, h]

/-- The word an instruction writes to its destination; 0 for one that has none (R22). -/
def resultOf (i : Instr) (s : State) : Word :=
  match i with
  | .add rs rt _ _ => add32 (s.readReg rs) (s.readReg rt)
  | .sub rs rt _ _ => sub32 (s.readReg rs) (s.readReg rt)
  | .slt rs rt _ _ => setLess (s.readReg rs) (s.readReg rt)
  | .addi rs _ imm => addImm32 (s.readReg rs) imm
  | .lw rs _ imm => s.loadWord (effectiveAddr (s.readReg rs) imm)
  | .beq _ _ _ => 0#32
  | .sw _ _ _ => 0#32
  | .unknownFunct _ _ _ _ _ => 0#32
  | .unknownOpcode _ _ _ _ _ _ => 0#32

/-- The pc after an instruction (R25, R160). -/
def pcAfter (i : Instr) (s : State) : Addr :=
  match i with
  | .beq rs rt imm => if s.readReg rs = s.readReg rt then branchTarget s.pc imm else nextPc s.pc
  | _ => nextPc s.pc

/-- The state with an instruction's destination, where it has one, written with v (R22). -/
def State.writeDest (s : State) (i : Instr) (v : Word) : State :=
  match destOf i with
  | some d => s.writeReg d v
  | none => s

theorem State.readReg_writeDest_other {s : State} {i : Instr} {v : Word} {r : RegIdx} (h : destOf i ≠ some r) :
    (s.writeDest i v).readReg r = s.readReg r := by
  unfold State.writeDest
  split
  · next d hd => exact s.readReg_writeReg_other v fun hdr => h (hd.trans (congrArg some hdr))
  · rfl

/-- What an instruction does to Backing Memory and cache: nothing, or what R171 and R172 say of a LW that hits, of a LW that
misses, and of a SW. -/
inductive MemEffect (s t : State) : Instr → Prop
  | quiet {i : Instr} (hi : ∀ rs rt imm, i ≠ .lw rs rt imm ∧ i ≠ .sw rs rt imm) (hmem : t.mem = s.mem)
      (hcache : t.cache = s.cache) : MemEffect s t i
  | hit {rs rt : RegIdx} {imm : Imm} {a : Addr} {j : Nat} {b : Block} (ha : a = effectiveAddr (s.readReg rs) imm)
      (hfind : s.cache.find a = some (j, b)) (hmem : t.mem = s.mem) (hcache : t.cache = (s.cache.read a).2) :
      MemEffect s t (.lw rs rt imm)
  | miss {rs rt : RegIdx} {imm : Imm} {a : Addr} (ha : a = effectiveAddr (s.readReg rs) imm)
      (hfind : s.cache.find a = none)
      (hmem : t.mem = if s.memPresent a then s.mem else (s.memWrite a 0#32 .data).mem)
      (hcache : t.cache = (s.cache.read a).2.write a ((s.memRead a).getD 0#32)) : MemEffect s t (.lw rs rt imm)
  | store {rs rt : RegIdx} {imm : Imm} {a : Addr} (ha : a = effectiveAddr (s.readReg rs) imm)
      (hmem : t.mem = (s.memWrite a (s.readReg rt) .data).mem) (hcache : t.cache = s.cache.write a (s.readReg rt)) :
      MemEffect s t (.sw rs rt imm)

/-- Registers, pc, memory and cache after a LW, its three cases as one (R171). -/
theorem exec_lw_effect {rs rt : RegIdx} {imm : Imm} {s t : State} (h : exec (.lw rs rt imm) s = .next t) :
    t.regs = (s.writeReg rt (s.loadWord (effectiveAddr (s.readReg rs) imm))).regs ∧ t.pc = nextPc s.pc ∧
      MemEffect s t (.lw rs rt imm) := by
  rcases exec_lw_cases rs rt imm s with ⟨j, b, hf, hu⟩ | ⟨e, hf, he, hu⟩ | ⟨hf, he, hu⟩ <;> cases hu.symm.trans h
  · rw [State.loadWord_of_hit hf]
    exact ⟨rfl, rfl, .hit rfl hf rfl rfl⟩
  · have hpres := State.memPresent_iff.2 ⟨e, he⟩
    rw [State.loadWord_of_miss hf, State.memRead_of_entry he]
    exact ⟨rfl, rfl, .miss rfl hf (if_pos hpres).symm (by rw [State.memRead_of_entry he]; rfl)⟩
  · have habs := State.memPresent_eq_false.2 he
    have hread := State.memRead_eq_none.2 he
    rw [State.loadWord_of_miss hf, hread]
    exact ⟨rfl, rfl, .miss rfl hf (by rw [habs]; rfl) (by rw [hread]; rfl)⟩

/-- Registers, pc, memory and cache after any instruction; `exec_controlKept` says the rest. -/
theorem exec_effect {i : Instr} {s t : State} (h : exec i s = .next t) :
    t.regs = (s.writeDest i (resultOf i s)).regs ∧ t.pc = pcAfter i s ∧ MemEffect s t i := by
  cases i with
  | lw rs rt imm => exact exec_lw_effect h
  | sw rs rt imm =>
    cases h
    exact ⟨rfl, rfl, .store rfl rfl rfl⟩
  | beq rs rt imm =>
    cases (exec_beq rs rt imm s).symm.trans h
    exact ⟨rfl, rfl, .quiet (by simp) rfl rfl⟩
  | _ =>
    cases h
    exact ⟨rfl, rfl, .quiet (by simp) rfl rfl⟩

/-! Registers and program counter. -/

theorem State.readReg_congr {s t : State} (h : s.regs = t.regs) (r : RegIdx) : s.readReg r = t.readReg r := by
  rw [State.readReg, State.readReg]
  simp only [h]

theorem exec_readReg_other {i : Instr} {s t : State} (h : exec i s = .next t) {r : RegIdx} (hr : destOf i ≠ some r) :
    t.readReg r = s.readReg r := by
  obtain ⟨hregs, -, -⟩ := exec_effect h
  rw [State.readReg_congr hregs, State.readReg_writeDest_other hr]

/-- Settles O48: a register that is not the destination is left as it was. -/
theorem onlyTheDestinationRegisterChanges : Obligations.OnlyTheDestinationRegisterChanges := by
  intro i s t h r
  contrapose!
  exact exec_readReg_other h

theorem branchTarget_toNat (pc : Addr) (imm : Imm) :
    ((branchTarget pc imm).toNat : Int) = ((pc.toNat : Int) + 1 + imm.toInt) % 256 := by
  rw [branchTarget, trunc_toNat, signed_eq_toInt (by decide)]
  rfl

theorem pcAfter_of_not_taken {i : Instr} {s : State}
    (h : ∀ rs rt imm, i = .beq rs rt imm → s.readReg rs ≠ s.readReg rt) : pcAfter i s = nextPc s.pc := by
  unfold pcAfter
  split
  · next rs rt imm => exact if_neg (h rs rt imm rfl)
  · rfl

/-- No result depends on the pc (R25). -/
theorem resultOf_setPc (i : Instr) (s : State) (p : Addr) : resultOf i (s.setPc p) = resultOf i s := by
  cases i <;> rfl

theorem State.writeDest_setPc (s : State) (p : Addr) (i : Instr) (v : Word) :
    (s.setPc p).writeDest i v = (s.writeDest i v).setPc p := by
  unfold State.writeDest
  split <;> rfl

/-- Settles O32: the two clauses on pc are the two sides of `pcAfter`; the registers after an instruction are those of
`writeDest`, which commutes with `setPc`. -/
theorem pcAdvancesOrBranches : Obligations.PcAdvancesOrBranches := by
  intro i s t h
  obtain ⟨hregs, hpc, -⟩ := exec_effect h
  refine ⟨fun hnot => ?_, fun rs rt imm hi heq => ?_, fun p u hu => State.readReg_congr ?_⟩
  · rw [PcAdvanced, hpc, pcAfter_of_not_taken hnot, nextPc_toNat]
  · subst hi
    rw [hpc, pcAfter, if_pos heq, branchTarget_toNat]
  · obtain ⟨hregs', -, -⟩ := exec_effect hu
    rw [hregs, hregs', resultOf_setPc, State.writeDest_setPc, State.setPc_regs]

/-! Backing Memory. -/

theorem State.entryAt_congr {s t : State} (h : s.mem = t.mem) (a : Addr) : s.entryAt a = t.entryAt a := by
  rw [State.entryAt, State.entryAt, h]

/-- Each entry after an instruction: as it was, the word a SW stores, or the 0 that a missing LW creates (R54, R138). -/
theorem exec_entryAt {i : Instr} {s t : State} (h : exec i s = .next t) (a : Addr) :
    t.entryAt a = s.entryAt a ∨
      (∃ rs rt imm, i = .sw rs rt imm ∧ a = effectiveAddr (s.readReg rs) imm ∧
        t.entryAt a = some { word := s.readReg rt, kind := .data }) ∨
      ∃ rs rt imm, i = .lw rs rt imm ∧ a = effectiveAddr (s.readReg rs) imm ∧ s.cache.Lacks a ∧
        s.entryAt a = none ∧ t.entryAt a = some { word := 0#32, kind := .data } := by
  obtain ⟨-, -, heff⟩ := exec_effect h
  cases heff with
  | quiet _ hmem => exact .inl (State.entryAt_congr hmem a)
  | hit _ _ hmem => exact .inl (State.entryAt_congr hmem a)
  | @miss rs rt imm b hb hfind hmem =>
    cases hpres : s.memPresent b with
    | true => exact .inl (State.entryAt_congr (hmem.trans (if_pos hpres)) a)
    | false =>
      have hput := State.entryAt_congr (hmem.trans (if_neg (by simp [hpres]))) a
      by_cases hab : a = b
      · subst hab
        exact .inr (.inr ⟨rs, rt, imm, rfl, hb, Cache.find_eq_none.1 hfind, State.memPresent_eq_false.1 hpres,
          hput.trans (s.entryAt_memWrite_same ..)⟩)
      · exact .inl (hput.trans (s.entryAt_memWrite_other _ _ hab))
  | @store rs rt imm b hb hmem =>
    have hput := State.entryAt_congr hmem a
    by_cases hab : a = b
    · subst hab
      exact .inr (.inl ⟨rs, rt, imm, rfl, hb, hput.trans (s.entryAt_memWrite_same ..)⟩)
    · exact .inl (hput.trans (s.entryAt_memWrite_other _ _ hab))

/-- Settles O49: the two ways in which `exec_entryAt` lets an entry change. -/
theorem onlyLoadsAndStoresChangeMemory : Obligations.OnlyLoadsAndStoresChangeMemory := by
  intro i s t a h hne
  rcases exec_entryAt h a with hsame | ⟨rs, rt, imm, hi, ha, -⟩ | hload
  · exact absurd hsame hne
  · exact .inl ⟨rs, rt, imm, hi, ha⟩
  · exact .inr hload

/-- No instruction removes an entry (R50). -/
theorem exec_memPresent {i : Instr} {s t : State} (h : exec i s = .next t) {a : Addr} (ha : s.memPresent a = true) :
    t.memPresent a = true := by
  rcases exec_entryAt h a with hsame | ⟨_, _, _, _, _, hstored⟩ | ⟨_, _, _, _, _, _, _, hcreated⟩
  · rwa [State.memPresent, hsame]
  · exact State.memPresent_iff.2 ⟨_, hstored⟩
  · exact State.memPresent_iff.2 ⟨_, hcreated⟩

/-- No step removes an entry (R50). -/
theorem step_memPresent {s t : State} (h : step s = .next t) {a : Addr} (ha : s.memPresent a = true) :
    t.memPresent a = true := by
  rcases step_next_cases h with ⟨-, rfl⟩ | ⟨-, u, hu, rfl⟩
  · exact ha
  · exact exec_memPresent hu ha

/-- Settles O50: a step by `step_memPresent`; a load is a memory write and a cache call does not touch memory. -/
theorem noEntryIsEverRemoved : Obligations.NoEntryIsEverRemoved := by
  intro x s t a hx h ha
  cases x with
  | reset cfg => exact absurd rfl (hx cfg)
  | step => exact step_memPresent h ha
  | load b w k =>
    cases h
    exact (s.memPresent_memWrite b w k a).trans (by rw [ha, Bool.or_true])
  | _ =>
    cases h
    exact ha

/-- Settles O38: the counters of the two cache calls, by the instruction's effect. -/
theorem countersPerInstruction : Obligations.CountersPerInstruction := by
  intro i s t h
  obtain ⟨-, -, heff⟩ := exec_effect h
  cases heff with
  | quiet hi _ hcache =>
    exact ⟨fun rs rt imm h => absurd h (hi rs rt imm).1, fun rs rt imm h => absurd h (hi rs rt imm).1,
      fun rs rt imm h => absurd h (hi rs rt imm).2, fun _ => hcache⟩
  | @hit rs rt imm a j b ha hfind _ hcache =>
    refine ⟨?_, ?_, nofun, fun hi => absurd rfl (hi rs rt imm).1⟩
    · rintro _ _ _ ⟨⟩ hlacks
      rw [← ha, ← Cache.find_eq_none, hfind] at hlacks
      cases hlacks
    · rintro _ _ _ ⟨⟩ -
      rw [hcache]
      exact Cache.read_hit_counters hfind
  | @miss rs rt imm a ha hfind _ hcache =>
    refine ⟨?_, ?_, nofun, fun hi => absurd rfl (hi rs rt imm).1⟩
    · rintro _ _ _ ⟨⟩ -
      obtain ⟨hcount, hhits, hmisses⟩ := Cache.read_miss_counters hfind
      rw [hcache]
      exact ⟨congrArg (· + 1) hcount, hhits, hmisses⟩
    · rintro _ _ _ ⟨⟩ hholds
      rw [← ha] at hholds
      exact absurd (Cache.find_eq_none.1 hfind) hholds
  | @store rs rt imm a ha _ hcache =>
    refine ⟨nofun, nofun, ?_, fun hi => absurd rfl (hi rs rt imm).2⟩
    rintro _ _ _ ⟨⟩
    rw [hcache]
    exact ⟨rfl, rfl, rfl⟩

end Sys2Proof.Machine
end

section
/-! SUPPORT. The branch target as 8-bit arithmetic, with the proofs of O29 to O31 (spec/42_branch.md R160 to R164), and what
LW and SW leave, with the proofs of O34 to O37 and O39 (spec/43_loadstore.md R171, R172 and R174). -/

namespace Sys2Proof

theorem decode_eq_beq_iff (w : Word) : decode w = .beq (rsOf w) (rtOf w) (immOf w) ↔ opcodeOf w = 0x04#6 := by
  rw [← eq_iForm_iff]
  exact decode_eq_iff (decode_iForm ..) rfl

theorem decode_eq_lw_iff (w : Word) : decode w = .lw (rsOf w) (rtOf w) (immOf w) ↔ opcodeOf w = 0x23#6 := by
  rw [← eq_iForm_iff]
  exact decode_eq_iff (decode_iForm ..) rfl

theorem decode_eq_sw_iff (w : Word) : decode w = .sw (rsOf w) (rtOf w) (immOf w) ↔ opcodeOf w = 0x2B#6 := by
  rw [← eq_iForm_iff]
  exact decode_eq_iff (decode_iForm ..) rfl

end Sys2Proof

namespace Sys2Proof.Machine

/-! The branch. -/

/-- Settles O29: BEQ is `setPc` of the target or of the successor. -/
theorem beqBranchesOnEquality : Obligations.BeqBranchesOnEquality := by
  refine ⟨fun w => (mask_beq w).trans (decode_eq_beq_iff w).symm, fun rs rt imm s =>
    ⟨_, exec_beq rs rt imm s, fun heq => ?_, fun hne => ?_, fun _ => rfl, ⟨rfl, rfl⟩, fun _ => rfl, rfl⟩⟩
  · rw [if_pos heq, State.setPc_pc, branchTarget_toNat]
  · rw [if_neg hne, PcAdvanced, State.setPc_pc, nextPc_toNat]

/-- Truncation of the signed offset keeps its low byte (R161). -/
theorem trunc_signed_eq_setWidth (imm : Imm) : trunc 8 (signed 16 imm) = imm.setWidth 8 := by
  apply BitVec.eq_of_toNat_eq
  have htrunc := trunc_toNat 8 (signed 16 imm)
  have hlow : imm.toInt % 256 = (imm.toNat : Int) % 256 := toInt_emod_two_pow (m := 8) (by decide) imm
  rw [signed_eq_toInt (by decide)] at htrunc ⊢
  rw [BitVec.toNat_setWidth]
  omega

/-- The target is an 8-bit sum, to which the offset contributes its low byte (R160, R162). -/
theorem branchTarget_eq (pc : Addr) (imm : Imm) : branchTarget pc imm = pc + 1#8 + imm.setWidth 8 := by
  rw [← trunc_signed_eq_setWidth, branchTarget, trunc, BitVec.ofInt_add, BitVec.ofInt_add, BitVec.ofInt_natCast,
    BitVec.ofNat_toNat, BitVec.setWidth_eq]
  rfl

/-- Either of the source's two paths is that sum (R162). -/
theorem branchTargetTwoPaths_eq (pc : Addr) (imm : Imm) : branchTargetTwoPaths pc imm = branchTarget pc imm := by
  rw [branchTargetTwoPaths, branchTarget_eq]
  split
  · rw [branchSum16, BitVec.setWidth_add _ _ (by decide), BitVec.setWidth_add _ _ (by decide),
      BitVec.setWidth_setWidth_of_le _ (by decide), BitVec.setWidth_eq]
    rfl
  · rw [trunc_signed_eq_setWidth]

/-- A negative offset's 16-bit sum does not overflow (R161). -/
theorem branchSum16_toInt {imm : Imm} (h : imm.toInt < 0) (pc : Addr) :
    (branchSum16 pc imm).toInt = (pc.toNat : Int) + 1 + imm.toInt := by
  have hpc := pc.isLt
  have hsum : (branchSum16 pc imm).toNat = (pc.toNat + 1 + imm.toNat) % 65536 := by
    rw [branchSum16, BitVec.toNat_add, BitVec.toNat_add, BitVec.toNat_setWidth, BitVec.toNat_ofNat]
    omega
  rw [BitVec.toInt_eq_toNat_cond] at h ⊢
  rw [BitVec.toInt_eq_toNat_cond, hsum]
  omega

/-- Settles O30: `branchTargetTwoPaths_eq`, and the bounds follow from the exact sum. -/
theorem bothBranchPathsAgree : Obligations.BothBranchPathsAgree := by
  refine fun pc imm => ⟨branchTargetTwoPaths_eq pc imm, fun h => ?_⟩
  have hpc := pc.isLt
  have hmin : -32768 ≤ imm.toInt := BitVec.le_toInt imm
  rw [branchSum16_toInt h]
  omega

/-- Settles O31: the offset to an address is their 8-bit difference, and the end of the step probes the target. -/
theorem beqReachesEveryAddress : Obligations.BeqReachesEveryAddress := by
  refine ⟨fun p a => ⟨(a - (p + 1#8)).setWidth 16, ?_⟩, fun s rs rt imm hrun hdec heq habs => ?_⟩
  · rw [branchTarget_eq, BitVec.setWidth_setWidth_of_le _ (by decide), BitVec.setWidth_eq, BitVec.add_comm,
      BitVec.sub_add_cancel]
  · have hexec : exec (decode s.fetch) s = .next (s.setPc (branchTarget s.pc imm)) := by
      rw [hdec, exec_beq, if_pos heq]
    exact ⟨_, step_running hrun hexec, rfl,
      (State.finishStep_halted_iff (s := s.setPc (branchTarget s.pc imm)) hrun).2 (State.memPresent_eq_false.1 habs), rfl⟩

/-! Loads and stores. -/

/-- Settles O34: a hit is a register write and the pc's advance in the state with `CacheRead`'s cache. -/
theorem loadHitTakesTheCachedWord : Obligations.LoadHitTakesTheCachedWord := by
  refine ⟨fun w => (mask_lw w).trans (decode_eq_lw_iff w).symm, fun rs rt imm s j b hholds =>
    ⟨_, exec_lw_hit (Cache.find_eq_some.2 hholds), ?_⟩⟩
  exact ⟨State.readReg_advancePc_writeReg_same .., frame_writeReg_advancePc (s.withCache _) rt b.data⟩

/-- Settles O35: as O34, and then the cache is filled. -/
theorem loadMissTakesTheMemoryWord : Obligations.LoadMissTakesTheMemoryWord := by
  refine fun rs rt imm s e hlacks he => ⟨_, exec_lw_present (Cache.find_eq_none.2 hlacks) he, ?_⟩
  exact ⟨State.readReg_writeReg_same .., regsKeptBut_writeReg_advancePc (s.withCache _) rt e.word, nextPc_toNat s.pc,
    ⟨rfl, rfl⟩, fun _ => rfl, rfl⟩

/-- Settles O36: as O35, with one memory write before. -/
theorem loadMissCreatesAnAbsentAddress : Obligations.LoadMissCreatesAnAbsentAddress := by
  refine fun rs rt imm s hlacks habs => ⟨_, exec_lw_absent (Cache.find_eq_none.2 hlacks) habs, ?_⟩
  exact ⟨State.readReg_writeReg_same .., regsKeptBut_writeReg_advancePc (s.withCache _) rt 0#32, nextPc_toNat s.pc,
    ⟨rfl, rfl⟩, s.entryAt_memWrite_same .., memKeptBut_memWrite s _ 0#32 .data, rfl⟩

/-- Settles O37: one memory write, then one cache write. -/
theorem storeWritesMemoryAndCache : Obligations.StoreWritesMemoryAndCache :=
  ⟨fun w => (mask_sw w).trans (decode_eq_sw_iff w).symm, fun rs rt imm s =>
    ⟨_, exec_sw rs rt imm s, s.entryAt_memWrite_same .., memKeptBut_memWrite s _ (s.readReg rt) .data,
      fun _ => rfl, nextPc_toNat s.pc, ⟨rfl, rfl⟩, rfl⟩⟩

theorem State.fetch_setPc_of_entry {s : State} {a : Addr} {e : Entry} (h : s.entryAt a = some e) :
    (s.setPc a).fetch = e.word := State.fetch_of_entry (s := s.setPc a) h

/-- Settles O39: the step is that of the SW, whose memory write a fetch at its address reads. -/
theorem storedWordIsFetchedNext : Obligations.StoredWordIsFetchedNext := by
  intro s t rs rt imm hrun hdec hstep
  cases (step_running hrun ((congrArg (exec · s) hdec).trans (exec_sw rs rt imm s))).symm.trans hstep
  refine ⟨?_, nextPc_toNat s.pc, fun _ => rfl⟩
  exact State.fetch_setPc_of_entry (s.entryAt_memWrite_same (effectiveAddr (s.readReg rs) imm) (s.readReg rt) .data)

end Sys2Proof.Machine
end

section
/-! SUPPORT. What a step leaves at its end, what a decoded form's mnemonic says of its class, the states the host loads, reset
and hit rate; the proofs of O10, O15 to O18, O20 and O23 (spec/40_step.md R133, R137, R139, R141 and R142,
spec/10_state.md R37, spec/20_memory.md R69). -/

namespace Sys2Proof.Machine

/-- Settles O10: the fetched word is the entry's, whatever its kind. -/
theorem stepRunsTheInstructionAtPc : Obligations.StepRunsTheInstructionAtPc := by
  intro s t e i hrun hentry hdec _ hexec
  exact step_running hrun (by rwa [State.fetch_of_entry hentry, hdec])

theorem State.finishStep_halted_or_present (s : State) : s.finishStep.halted = true ∨ s.memPresent s.pc = true := by
  rw [State.finishStep_halted]
  cases s.memPresent s.pc with
  | true => exact .inr rfl
  | false => exact .inl (Bool.or_true _)

/-- After a step the engine is Halted or finds its next address present (R139). -/
theorem step_halted_or_present {s t : State} (h : step s = .next t) :
    t.halted = true ∨ t.memPresent t.pc = true := by
  rcases step_next_cases h with ⟨hhalt, rfl⟩ | ⟨-, u, -, rfl⟩
  · exact .inl hhalt
  · exact u.finishStep_halted_or_present

/-- A load touches memory alone (R201), so every loaded state stands where reset put it. -/
theorem Loaded.at_start {s : State} (h : Loaded s) : s.cycles = 0 ∧ s.halted = false ∧ s.pc = 0#8 := by
  induction h with
  | reset cfg => exact ⟨rfl, rfl, rfl⟩
  | load a w k _ ih => exact ih

/-- Settles O15: the end of a step probes the new pc; loaded states are at their start. -/
theorem onlyAFirstFetchFindsNothing : Obligations.OnlyAFirstFetchFindsNothing :=
  ⟨fun _ _ => step_halted_or_present, fun _ => Loaded.at_start⟩

/-- Settles O16: a Halted step does nothing, and the other operations touch memory or cache alone. -/
theorem onlyResetLeavesHalted : Obligations.OnlyResetLeavesHalted := by
  intro x s t hx h hhalt
  cases x with
  | reset cfg => exact absurd rfl (hx cfg)
  | step =>
    cases (step_halted hhalt).symm.trans h
    exact ⟨hhalt, rfl, rfl⟩
  | _ =>
    cases h
    exact ⟨hhalt, rfl, rfl⟩

/-- Settles O17: no instruction removes an entry, so the halt check finds the new pc present. -/
theorem fullMemoryNeverHalts : Obligations.FullMemoryNeverHalts := by
  intro s t hrun hfull h
  refine ⟨?_, fun a => step_memPresent h (hfull a)⟩
  rcases step_next_cases h with ⟨hhalt, -⟩ | ⟨-, u, hu, rfl⟩
  · simp [hrun] at hhalt
  · obtain ⟨hhalted, -⟩ := exec_controlKept hu
    rw [State.finishStep_halted, exec_memPresent hu (hfull u.pc), hhalted, hrun]
    rfl

end Sys2Proof.Machine

namespace Sys2Proof

/-- The two mnemonics of unsupported words are those of the class UNKNOWN (R183). -/
theorem toInstr_mnemonic_unknown_iff (d : DecodedForm) :
    d.toInstr.mnemonic = "UNKNOWN_FUNCT" ∨ d.toInstr.mnemonic = "UNKNOWN_OPCODE" ↔ d.cls = .unknown := by
  obtain ⟨cls, opcode, rs, rt, rd, shamt, funct, imm⟩ := d
  cases cls with
  | unknown =>
    by_cases h0 : opcode = 0x00#6
    · simp [DecodedForm.toInstr, h0, Instr.mnemonic]
    · simp [DecodedForm.toInstr, h0, Instr.mnemonic]
  | _ => simp [DecodedForm.toInstr, Instr.mnemonic]

end Sys2Proof

namespace Sys2Proof.Machine

/-- Settles O18: the event's decoded form is the one that gives the instruction, so its class says the mnemonic. -/
theorem traceReportsTheExecutedWord : Obligations.TraceReportsTheExecutedWord := by
  intro s hrun
  refine ⟨State.traceEvent_of_running hrun, fun e he => ?_⟩
  cases (State.traceEvent_of_running hrun).symm.trans he
  rw [TraceEvent.unsupported, decide_eq_true_iff, decode, toInstr_mnemonic_unknown_iff]

theorem State.readReg_resetWith (cfg : CacheConfig) (r : RegIdx) : (State.resetWith cfg).readReg r = 0#32 :=
  Vector.getElem_replicate _

/-- Settles O20: the fresh state's fields, with the laws of the fresh cache. -/
theorem resetSetsEveryPieceOfState : Obligations.ResetSetsEveryPieceOfState := fun cfg s =>
  ⟨State.resetWith cfg, hostApply_reset cfg s, State.readReg_resetWith cfg, rfl, rfl, rfl, fun _ => rfl, rfl,
    CacheShape.fresh cfg, Cache.fresh_empty cfg, rfl, rfl, rfl⟩

theorem Cache.hitRate_of_no_access {c : Cache} (h : c.hits + c.misses = 0) : c.hitRate = 0 := if_pos h

/-- The hit rate is the library's quotient also without an access, where division by 0 gives 0. -/
theorem Cache.hitRate_eq_div (c : Cache) : c.hitRate = (c.hits : ℚ) / ((c.hits : ℚ) + (c.misses : ℚ)) := by
  unfold Cache.hitRate
  split
  · next h =>
    have hhits : c.hits = 0 := by omega
    rw [hhits, Nat.cast_zero, zero_div]
  · rfl

/-- Settles O23: the hit rate is a quotient of natural numbers whose denominator is at least its numerator, and 0 only with
it. -/
theorem hitRateIsTheExactFraction : Obligations.HitRateIsTheExactFraction := by
  intro s
  have hhits : (0 : ℚ) ≤ s.cache.hits := Nat.cast_nonneg _
  have hmisses : (0 : ℚ) ≤ s.cache.misses := Nat.cast_nonneg _
  refine ⟨?_, ?_, Cache.hitRate_of_no_access, ?_⟩ <;> rw [hostHitRate, Cache.hitRate_eq_div]
  · exact div_nonneg hhits (add_nonneg hhits hmisses)
  · exact div_le_one_of_le₀ (le_add_of_nonneg_right hmisses) (add_nonneg hhits hmisses)
  · exact div_mul_cancel_of_imp fun hzero => ((add_eq_zero_iff_of_nonneg hhits hmisses).1 hzero).1

end Sys2Proof.Machine
end

section
/-! SUPPORT. The three cases of a write's way, and that a write is found again; the proofs of O43, O44 and O46
(spec/20_memory.md R66, R67 and R77). -/

namespace Sys2Proof.Machine

/-! Full sets and free ways. -/

theorem isSome_of_firstFree_eq_none {ws : List (Option Block)} (h : firstFree ws = none) {i : Nat} (hi : i < ws.length) :
    (ws.getD i none).isSome := by
  rw [firstFree_eq_none h, List.length_map] at hi
  rw [firstFree_eq_none h, List.getD_eq_getElem?_getD, List.getElem?_map, List.getElem?_eq_getElem hi]
  rfl

theorem firstFree_eq_some_of {ws : List (Option Block)} {j : Nat} (hj : j < ws.length) (hfree : ws.getD j none = none)
    (hbelow : ∀ i, i < j → (ws.getD i none).isSome) : firstFree ws = some j := by
  rcases h : firstFree ws with _ | k
  · exact absurd (isSome_of_firstFree_eq_none h hj) (by rw [hfree]; decide)
  · obtain ⟨-, hkfree, hkbelow⟩ := firstFree_eq_some h
    rcases lt_trichotomy k j with hlt | rfl | hlt
    · exact absurd (hbelow k hlt) (by rw [hkfree]; decide)
    · rfl
    · exact absurd (hkbelow j hlt) (by rw [hfree]; decide)

theorem firstFree_eq_none_of {ws : List (Option Block)} (hfull : ∀ i, i < ws.length → (ws.getD i none).isSome) :
    firstFree ws = none := by
  rcases h : firstFree ws with _ | k
  · rfl
  · obtain ⟨hk, hkfree, -⟩ := firstFree_eq_some h
    exact absurd (hfull k hk) (by rw [hkfree]; decide)

/-- In a full set `filterMap id` keeps every way at its own number. -/
theorem getElem?_filterMap_id_of_full {ws : List (Option Block)} (h : firstFree ws = none) (i : Nat) :
    (ws.filterMap id)[i]? = ws.getD i none := by
  conv_rhs => rw [firstFree_eq_none h]
  rw [List.getD_eq_getElem?_getD, List.getElem?_map]
  cases (ws.filterMap id)[i]? <;> rfl

/-! The way a write goes to (R67). -/

theorem targetWay_of_found {t : BitVec 8} {ws : List (Option Block)} {j : Nat} {b : Block}
    (h : findTag t ws = some (j, b)) : targetWay t ws = j := by
  rw [targetWay, h]

theorem targetWay_of_free {t : BitVec 8} {ws : List (Option Block)} {j : Nat} (h : findTag t ws = none)
    (hfree : firstFree ws = some j) : targetWay t ws = j := by
  rw [targetWay, h, hfree]

theorem targetWay_of_full {t : BitVec 8} {ws : List (Option Block)} (h : findTag t ws = none)
    (hfull : firstFree ws = none) : targetWay t ws = victim (ws.filterMap id) := by
  rw [targetWay, h, hfull]

/-- The first least recently used way is one way. -/
theorem IsFirstLeastUsed.index_unique {bs : List Block} {i j : Nat} {b d : Block} (hi : IsFirstLeastUsed bs i b)
    (hj : IsFirstLeastUsed bs j d) : i = j := by
  rcases lt_trichotomy i j with hlt | heq | hlt
  · exact absurd (hj.first i b hlt hi.get) (hi.least j d hj.get).not_gt
  · exact heq
  · exact absurd (hi.first j d hlt hj.get) (hj.least i b hi.get).not_gt

theorem victim_eq_of_isFirstLeastUsed {bs : List Block} {j : Nat} {b : Block} (h : IsFirstLeastUsed bs j b) :
    victim bs = j := by
  have hne : bs ≠ [] := by
    rintro rfl
    cases h.get
  obtain ⟨d, hd⟩ := victim_isFirstLeastUsed hne
  exact hd.index_unique h

/-- Case C's way in a full set, said of the ways themselves. -/
theorem targetWay_eq_of_least {t : BitVec 8} {ws : List (Option Block)} {j : Nat} {b : Block}
    (h : findTag t ws = none) (hfull : ∀ i, i < ws.length → (ws.getD i none).isSome) (hb : ws.getD j none = some b)
    (hleast : ∀ i d, ws.getD i none = some d → b.lastUsed ≤ d.lastUsed)
    (hfirst : ∀ i d, i < j → ws.getD i none = some d → b.lastUsed < d.lastUsed) : targetWay t ws = j := by
  have hnone := firstFree_eq_none_of hfull
  rw [targetWay_of_full h hnone]
  refine victim_eq_of_isFirstLeastUsed (b := b) ⟨?_, fun k d hd => ?_, fun k d hk hd => ?_⟩
  · rwa [getElem?_filterMap_id_of_full hnone]
  · exact hleast k d (by rwa [getElem?_filterMap_id_of_full hnone] at hd)
  · exact hfirst k d hk (by rwa [getElem?_filterMap_id_of_full hnone] at hd)

/-- No way below a write's own has the tag already. -/
theorem tag_ne_of_lt_targetWay {t : BitVec 8} {ws : List (Option Block)} {i : Nat} {d : Block}
    (hi : i < targetWay t ws) (hd : ws.getD i none = some d) : d.tag ≠ t := by
  rcases h : findTag t ws with _ | ⟨j, b⟩
  · exact findTag_eq_none.1 h i d hd
  · obtain ⟨-, -, hlower⟩ := findTag_eq_some.1 h
    exact hlower i d (by rwa [targetWay_of_found h] at hi) hd

/-! The two operations. -/

/-- Settles O43: the two equations of `CacheRead`, with `Holds` and `Lacks` as the lookup's two answers. -/
theorem cacheReadHitsOrMisses : Obligations.CacheReadHitsOrMisses := by
  refine fun c a => ⟨fun j b hholds => ?_, fun hlacks => ?_⟩
  · have hfind := Cache.find_eq_some.2 hholds
    obtain ⟨hcount, hhits, hmisses⟩ := Cache.read_hit_counters hfind
    refine ⟨by rw [Cache.read_of_hit hfind], ?_, fun r i hri => ?_, hcount, hhits, hmisses, c.read_cfg a⟩
    · exact (Cache.way_read_hit hfind _ _).trans (if_pos ⟨rfl, rfl⟩)
    · exact (Cache.way_read_hit hfind r i).trans (if_neg hri)
  · rw [Cache.read_of_miss (Cache.find_eq_none.2 hlacks)]
    exact ⟨rfl, rfl⟩

/-- Settles O44: `Cache.way_write`, with the way of each case. -/
theorem cacheWriteUpdatesFillsOrEvicts : Obligations.CacheWriteUpdatesFillsOrEvicts := by
  intro c a v hshape
  have hlen := hshape.ways_length (c.setIndex_lt a)
  refine ⟨rfl, rfl, rfl, rfl, fun j b hholds r i => ?_, fun j hlacks hj hfree hbelow r i => ?_,
    fun j b hlacks hfull hb hleast hfirst r i => ?_⟩
  · have hfind := Cache.find_eq_some.2 hholds
    rw [Cache.way_write hshape, targetWay_of_found hfind, (Cache.find_way hfind).2]
    rfl
  · rw [Cache.way_write hshape, targetWay_of_free (Cache.find_eq_none.2 hlacks)
      (firstFree_eq_some_of (hlen.symm ▸ hj) hfree hbelow)]
    rfl
  · rw [Cache.way_write hshape, targetWay_eq_of_least (Cache.find_eq_none.2 hlacks)
      (fun i hi => hfull i (hlen ▸ hi)) hb hleast hfirst]
    rfl

/-- After a write the lookup finds the block written, in the way it was written to. -/
theorem Cache.find_write {c : Cache} (h : CacheShape c) (a : Addr) (v : Word) :
    (c.write a v).find a = some (targetWay (c.tagOf a) (c.ways (c.setIndex a)),
      { tag := c.tagOf a, data := v, lastUsed := c.accessCounter + 1 }) := by
  refine findTag_eq_some.2 ⟨(Cache.way_write h a v _ _).trans (if_pos ⟨rfl, rfl⟩), rfl, fun i d hi hd => ?_⟩
  have hold : c.way (c.setIndex a) i = some d := by
    rw [← hd]
    exact ((Cache.way_write h a v _ i).trans (if_neg fun hi' => hi.ne hi'.2)).symm
  exact tag_ne_of_lt_targetWay hi hold

/-- Settles O46: the read hits the block that `Cache.find_write` finds. -/
theorem writeThenReadHits : Obligations.WriteThenReadHits := fun c a v hshape => by
  rw [Cache.read_of_hit (Cache.find_write hshape a v)]

end Sys2Proof.Machine
end

section
/-! SUPPORT. A set that is filled by writes in order, a set that holds the words of a list of addresses, and the proof of O47
(spec/20_memory.md R77). -/

namespace Sys2Proof.Machine

/-- One write after another. -/
def Cache.writes (c : Cache) (l : List (Addr × Word)) : Cache := l.foldl (fun c p => c.write p.1 p.2) c

theorem Cache.writes_concat (c : Cache) (l : List (Addr × Word)) (p : Addr × Word) :
    c.writes (l ++ [p]) = (c.writes l).write p.1 p.2 := List.foldl_concat ..

theorem Cache.writes_cfg (c : Cache) (l : List (Addr × Word)) : (c.writes l).cfg = c.cfg := by
  induction l generalizing c with
  | nil => rfl
  | cons p l ih => exact ih (c.write p.1 p.2)

theorem Cache.setIndex_writes (c : Cache) (l : List (Addr × Word)) (a : Addr) :
    (c.writes l).setIndex a = c.setIndex a := by
  rw [Cache.setIndex, Cache.setIndex, Cache.writes_cfg]

/-- Set s holds the words of the addresses of l, all of that set, and nothing else. -/
structure Cache.SetHolds (c : Cache) (s : Nat) (l : List (Addr × Word)) : Prop where
  inSet : ∀ p ∈ l, c.setIndex p.1 = s
  only : ∀ i b, c.way s i = some b → ∃ p ∈ l, b.tag = c.tagOf p.1 ∧ b.data = p.2
  all : ∀ p ∈ l, ∃ i b, c.way s i = some b ∧ b.tag = c.tagOf p.1

theorem Cache.SetHolds.find_eq_none {c : Cache} {s : Nat} {l : List (Addr × Word)} (h : c.SetHolds s l) {a : Addr}
    (ha : c.setIndex a = s) (hnot : a ∉ l.map Prod.fst) : c.find a = none := by
  subst ha
  refine Cache.find_none.2 fun i b hb htag => hnot ?_
  obtain ⟨p, hp, hptag, -⟩ := h.only i b hb
  rw [c.addr_eq_of_tag_set (htag.symm.trans hptag) (h.inSet p hp).symm]
  exact List.mem_map_of_mem hp

/-- Where the addresses are distinct, the way that a lookup finds has the address's own word. -/
theorem Cache.SetHolds.find_eq_some {c : Cache} {s : Nat} {l : List (Addr × Word)} (h : c.SetHolds s l)
    (hnodup : (l.map Prod.fst).Nodup) {p : Addr × Word} (hp : p ∈ l) :
    ∃ j b, c.find p.1 = some (j, b) ∧ b.data = p.2 := by
  have hset := h.inSet p hp
  subst hset
  rcases c.find_cases p.1 with ⟨j, b, hfind⟩ | hnone
  · obtain ⟨hway, htag⟩ := Cache.find_way hfind
    obtain ⟨q, hq, hqtag, hdata⟩ := h.only j b hway
    have haddr : q.1 = p.1 := c.addr_eq_of_tag_set (hqtag.symm.trans htag) (h.inSet q hq)
    have hqp : q = p := List.inj_on_of_nodup_map hnodup hq hp haddr
    exact ⟨j, b, hfind, hqp ▸ hdata⟩
  · obtain ⟨i, b, hway, htag⟩ := h.all p hp
    exact absurd htag (Cache.find_none.1 hnone i b hway)

/-- A read that misses changes no lookup (R66). -/
theorem Cache.find_read_of_miss {c : Cache} {a : Addr} (h : c.find a = none) (b : Addr) :
    (c.read a).2.find b = c.find b := by
  rw [Cache.read_of_miss h]
  rfl

/-- The ways of set s are, from way 0, those of the writes of l, stamped with the counter from n on; the others are invalid. -/
structure Cache.FilledBy (c : Cache) (s n : Nat) (l : List (Addr × Word)) : Prop where
  shape : CacheShape c
  counter : c.accessCounter = n + l.length
  inSet : ∀ p ∈ l, c.setIndex p.1 = s
  way : ∀ i, c.way s i = (l[i]?).map fun p => { tag := c.tagOf p.1, data := p.2, lastUsed := n + i + 1 }

section
variable {c : Cache} {s n : Nat} {l : List (Addr × Word)}

theorem Cache.FilledBy.way_eq_some (h : c.FilledBy s n l) {i : Nat} {b : Block} (hb : c.way s i = some b) :
    ∃ p, l[i]? = some p ∧ b = { tag := c.tagOf p.1, data := p.2, lastUsed := n + i + 1 } := by
  rw [h.way, Option.map_eq_some_iff] at hb
  obtain ⟨p, hp, rfl⟩ := hb
  exact ⟨p, hp, rfl⟩

theorem Cache.FilledBy.setHolds (h : c.FilledBy s n l) : c.SetHolds s l where
  inSet := h.inSet
  only i b hb := by
    obtain ⟨p, hp, rfl⟩ := h.way_eq_some hb
    exact ⟨p, List.mem_of_getElem? hp, rfl, rfl⟩
  all p hp := by
    obtain ⟨i, hi⟩ := List.mem_iff_getElem?.1 hp
    exact ⟨i, _, by rw [h.way, hi, Option.map_some], rfl⟩

theorem Cache.FilledBy.way_isSome (h : c.FilledBy s n l) {i : Nat} (hi : i < l.length) : (c.way s i).isSome := by
  rw [h.way, List.getElem?_eq_getElem hi]
  rfl

/-- A write of a further address fills the next way (R67 case B). -/
theorem Cache.FilledBy.write (h : c.FilledBy s n l) {p : Addr × Word} (hp : c.setIndex p.1 = s)
    (hnew : p.1 ∉ l.map Prod.fst) (hroom : l.length < c.cfg.blocksPerSet) :
    (c.write p.1 p.2).FilledBy s n (l ++ [p]) := by
  have hmiss : c.find p.1 = none := h.setHolds.find_eq_none hp hnew
  subst hp
  have hlen : l.length < (c.ways (c.setIndex p.1)).length := by rwa [h.shape.ways_length (c.setIndex_lt _)]
  have hfree : c.way (c.setIndex p.1) l.length = none := by
    rw [h.way, List.getElem?_eq_none le_rfl, Option.map_none]
  have htarget : targetWay (c.tagOf p.1) (c.ways (c.setIndex p.1)) = l.length :=
    targetWay_of_free hmiss (firstFree_eq_some_of hlen hfree fun _ => h.way_isSome)
  refine ⟨h.shape.write .., ?_, fun q hq => ?_, fun i => ?_⟩
  · rw [Cache.write_accessCounter, h.counter, List.length_append, List.length_singleton, Nat.add_assoc]
  · rcases List.mem_append.1 hq with hq | hq
    · exact h.inSet q hq
    · rw [List.mem_singleton.1 hq]
      rfl
  · rw [Cache.way_write h.shape, htarget, h.counter]
    rcases lt_trichotomy i l.length with hi | rfl | hi
    · rw [if_neg fun hi' => hi.ne hi'.2, h.way, List.getElem?_append_left hi]
      rfl
    · rw [if_pos ⟨rfl, rfl⟩, List.getElem?_concat_length]
      rfl
    · rw [if_neg fun hi' => hi.ne' hi'.2, h.way, List.getElem?_eq_none hi.le,
        List.getElem?_eq_none (by rw [List.length_append, List.length_singleton]; omega)]
      rfl

theorem Cache.FilledBy.writes (h : c.FilledBy s n l) (m : List (Addr × Word)) (hset : ∀ p ∈ m, c.setIndex p.1 = s)
    (hnodup : ((l ++ m).map Prod.fst).Nodup) (hroom : (l ++ m).length ≤ c.cfg.blocksPerSet) :
    (c.writes m).FilledBy s n (l ++ m) := by
  induction m generalizing c l with
  | nil => rwa [List.append_nil]
  | cons p m ih =>
    have hnew : p.1 ∉ l.map Prod.fst := fun hmem => by
      rw [List.map_append] at hnodup
      exact (List.nodup_append.1 hnodup).2.2 _ hmem _ (List.mem_map_of_mem List.mem_cons_self) rfl
    have hlt : l.length < c.cfg.blocksPerSet := by
      rw [List.length_append, List.length_cons] at hroom
      omega
    rw [List.append_cons] at hnodup hroom ⊢
    exact ih (h.write (hset p List.mem_cons_self) hnew hlt) (fun q hq => hset q (List.mem_cons_of_mem _ hq)) hnodup hroom

end

/-- A set with no valid way is filled by no write. -/
theorem Cache.FilledBy.of_empty {c : Cache} {s : Nat} (hshape : CacheShape c) (h : ∀ j, c.way s j = none) :
    c.FilledBy s c.accessCounter [] :=
  ⟨hshape, rfl, nofun, fun i => by rw [h, List.getElem?_nil, Option.map_none]⟩

section
variable {c : Cache} {n : Nat} {first p : Addr × Word} {l : List (Addr × Word)}

/-- In a full set the way written first has the smallest stamp (R68). -/
theorem Cache.FilledBy.targetWay_of_full (h : c.FilledBy (c.setIndex p.1) n (first :: l)) (hmiss : c.find p.1 = none)
    (hfull : (first :: l).length = c.cfg.blocksPerSet) :
    targetWay (c.tagOf p.1) (c.ways (c.setIndex p.1)) = 0 := by
  have hlen := h.shape.ways_length (c.setIndex_lt p.1)
  refine targetWay_eq_of_least hmiss (fun i hi => h.way_isSome (by omega)) (h.way 0) (fun i d hd => ?_)
    (fun i d hi _ => absurd hi (Nat.not_lt_zero i))
  obtain ⟨q, -, rfl⟩ := h.way_eq_some hd
  exact Nat.succ_le_succ (Nat.add_le_add_left (Nat.zero_le i) n)

/-- Once the set is full, a write of a further address replaces the address written first (R67 case C). -/
theorem Cache.FilledBy.write_full {s : Nat} (h : c.FilledBy s n (first :: l)) (hp : c.setIndex p.1 = s)
    (hnew : p.1 ∉ (first :: l).map Prod.fst) (hfull : (first :: l).length = c.cfg.blocksPerSet) :
    (c.write p.1 p.2).SetHolds s (l ++ [p]) := by
  have hmiss : c.find p.1 = none := h.setHolds.find_eq_none hp hnew
  subst hp
  have hway := Cache.way_write h.shape p.1 p.2 (c.setIndex p.1)
  simp only [h.targetWay_of_full hmiss hfull, true_and] at hway
  refine ⟨fun q hq => ?_, fun i b hb => ?_, fun q hq => ?_⟩
  · rcases List.mem_append.1 hq with hq | hq
    · exact h.inSet q (List.mem_cons_of_mem _ hq)
    · rw [List.mem_singleton.1 hq]
      rfl
  · rw [hway] at hb
    cases i with
    | zero =>
      cases hb
      exact ⟨p, List.mem_append_right _ (List.mem_singleton_self p), rfl, rfl⟩
    | succ i =>
      obtain ⟨q, hq, rfl⟩ := h.way_eq_some hb
      exact ⟨q, List.mem_append_left _ (List.mem_of_getElem? hq), rfl, rfl⟩
  · rcases List.mem_append.1 hq with hq | hq
    · obtain ⟨i, hi⟩ := List.mem_iff_getElem?.1 hq
      have hold : c.way (c.setIndex p.1) (i + 1) =
          some { tag := c.tagOf q.1, data := q.2, lastUsed := n + (i + 1) + 1 } := by
        rw [h.way, List.getElem?_cons_succ, hi, Option.map_some]
      exact ⟨i + 1, _, (hway (i + 1)).trans ((if_neg i.succ_ne_zero).trans hold), rfl⟩
    · rw [List.mem_singleton.1 hq]
      exact ⟨0, _, (hway 0).trans (if_pos rfl), rfl⟩

end

/-- Settles O47: the first K writes fill the set in order, so the last one replaces the first, and the set holds the rest. -/
theorem lruEvictsTheAddressWrittenFirst : Obligations.LruEvictsTheAddressWrittenFirst := by
  intro c first rest hshape hempty hlen hnodup hset
  obtain rfl | ⟨init, last, rfl⟩ := List.eq_nil_or_concat' rest
  · exact absurd hlen.symm c.cfg.blocksPerSet.ne_zero
  have hlast : last ∈ init ++ [last] := List.mem_append_right _ (List.mem_singleton_self last)
  obtain ⟨hfirst, hrest⟩ := List.nodup_cons.1 hnodup
  rw [← List.cons_append] at hnodup ⊢
  obtain ⟨hinit, -, hdisj⟩ := List.nodup_append.1 (List.map_append ▸ hnodup)
  have hroom : (first :: init).length = c.cfg.blocksPerSet := by
    rw [← hlen, List.length_append, List.length_cons, List.length_singleton]
  have hfilled : (c.writes (first :: init)).FilledBy (c.setIndex first.1) c.accessCounter (first :: init) :=
    (Cache.FilledBy.of_empty hshape hempty).writes (first :: init)
      (List.forall_mem_cons.2 ⟨rfl, fun p hp => hset p (List.mem_append_left _ hp)⟩) hinit hroom.le
  have hholds : (c.writes (first :: init ++ [last])).SetHolds (c.setIndex first.1) (init ++ [last]) := by
    rw [Cache.writes_concat]
    refine hfilled.write_full ((c.setIndex_writes ..).trans (hset last hlast)) (fun hmem => ?_) ?_
    · exact hdisj _ hmem _ (List.mem_map_of_mem (List.mem_singleton_self last)) rfl
    · rw [Cache.writes_cfg, hroom]
  have hmiss := hholds.find_eq_none (c.setIndex_writes _ first.1) hfirst
  refine ⟨congrArg (·.1.2) (Cache.read_of_miss hmiss), fun p hp => ?_⟩
  obtain ⟨j, b, hfind, hdata⟩ := hholds.find_eq_some hrest hp
  rw [← Cache.find_read_of_miss hmiss] at hfind
  exact (congrArg Prod.fst (Cache.read_of_hit hfind)).trans (by rw [hdata])

end Sys2Proof.Machine
end

section
/-! SUPPORT. What a cache call that stores a block is, for a hit and for a write alike, that such a call keeps the cache's
invariant, and so every operation the state's; the proofs of O53 to O55 (spec/20_memory.md R71 to R74). -/

namespace Sys2Proof.Machine

/-- Cache d is c after a call that stored a block of address a, stamped with the counter's next value, in way j of its set:
every lower way of that set is valid, and no other way of it has a's tag. -/
structure Cache.Stores (c : Cache) (a : Addr) (v : Word) (j : Nat) (d : Cache) : Prop where
  cfg : d.cfg = c.cfg
  shape : CacheShape d
  counter : d.accessCounter = c.accessCounter + 1
  counts : d.hits + d.misses ≤ c.hits + c.misses + 1
  way : ∀ r i, d.way r i =
    if r = c.setIndex a ∧ i = j then some { tag := c.tagOf a, data := v, lastUsed := c.accessCounter + 1 }
    else c.way r i
  below : ∀ i, i < j → (c.way (c.setIndex a) i).isSome
  only : ∀ i b, c.way (c.setIndex a) i = some b → b.tag = c.tagOf a → i = j

/-- A hit stores the block that is there with a new stamp (R66). -/
theorem Cache.stores_read_hit {c : Cache} (h : CacheInv c) {a : Addr} {j : Nat} {b : Block}
    (hf : c.find a = some (j, b)) : c.Stores a b.data j (c.read a).2 := by
  obtain ⟨hway, htag⟩ := Cache.find_way hf
  obtain ⟨hcount, hhits, hmisses⟩ := Cache.read_hit_counters hf
  refine ⟨c.read_cfg a, h.shape.read a, hcount, by omega, fun r i => ?_, fun i hi => ?_, fun i d hd hdtag => ?_⟩
  · rw [Cache.way_read_hit hf, htag]
  · exact h.filledFirst _ i j hi (by rw [hway]; rfl)
  · exact h.tagsDistinct _ i j d b hd hway (hdtag.trans htag.symm)

/-- A write stores its word, in the way that has the tag, in the lowest invalid way, or in a full set's victim (R67). -/
theorem Cache.stores_write {c : Cache} (h : CacheInv c) (a : Addr) (v : Word) :
    c.Stores a v (targetWay (c.tagOf a) (c.ways (c.setIndex a))) (c.write a v) := by
  refine ⟨rfl, h.shape.write a v, rfl, Nat.le_succ _, Cache.way_write h.shape a v, fun i hi => ?_, fun i d hd hdtag => ?_⟩
  · rcases hf : findTag (c.tagOf a) (c.ways (c.setIndex a)) with _ | ⟨j, b⟩
    · rcases hfree : firstFree (c.ways (c.setIndex a)) with _ | j
      · exact isSome_of_firstFree_eq_none hfree (hi.trans (h.shape.targetWay_lt a _))
      · rw [targetWay_of_free hf hfree] at hi
        exact (firstFree_eq_some hfree).2.2 i hi
    · rw [targetWay_of_found hf] at hi
      exact h.filledFirst _ i j hi (by rw [(Cache.find_way hf).1]; rfl)
  · rcases hf : findTag (c.tagOf a) (c.ways (c.setIndex a)) with _ | ⟨j, b⟩
    · exact absurd hdtag (Cache.find_none.1 hf i d hd)
    · obtain ⟨hway, htag⟩ := Cache.find_way hf
      rw [targetWay_of_found hf]
      exact h.tagsDistinct _ i j d b hd hway (hdtag.trans htag.symm)

section
variable {c d : Cache} {a : Addr} {v : Word} {j : Nat}

/-- A valid way after the call: the one stored, or an old one that is not a's. -/
theorem Cache.Stores.way_cases (h : c.Stores a v j d) {r i : Nat} {b : Block} (hb : d.way r i = some b) :
    (r = c.setIndex a ∧ i = j ∧ b = { tag := c.tagOf a, data := v, lastUsed := c.accessCounter + 1 }) ∨
      (c.way r i = some b ∧ ¬(r = c.setIndex a ∧ b.tag = c.tagOf a)) := by
  rw [h.way] at hb
  split at hb
  · next hri => exact .inl ⟨hri.1, hri.2, (Option.some.inj hb).symm⟩
  · next hri =>
    refine .inr ⟨hb, fun ⟨hr, htag⟩ => hri ⟨hr, ?_⟩⟩
    subst hr
    exact h.only i b hb htag

theorem Cache.blockAddr_congr (h : d.cfg = c.cfg) (s : Nat) (b : Block) : d.blockAddr s b = c.blockAddr s b := by
  rw [Cache.blockAddr, Cache.blockAddr, h]

/-- A call that stores a block keeps the invariant (R71 to R74). -/
theorem CacheInv.of_stores (hinv : CacheInv c) (h : c.Stores a v j d) : CacheInv d where
  shape := h.shape
  filledFirst s i k hik hk := by
    rw [h.way] at hk ⊢
    split
    · rfl
    · split at hk
      · next hsk =>
        obtain ⟨rfl, rfl⟩ := hsk
        exact h.below i hik
      · exact hinv.filledFirst s i k hik hk
  tagsDistinct s i k b e hb he htag := by
    rcases h.way_cases hb with ⟨hs, hi, rfl⟩ | ⟨hbold, hbnot⟩ <;> rcases h.way_cases he with ⟨hs', hk, rfl⟩ | ⟨heold, henot⟩
    · rw [hi, hk]
    · exact absurd ⟨hs, htag.symm⟩ henot
    · exact absurd ⟨hs', htag⟩ hbnot
    · exact hinv.tagsDistinct s i k b e hbold heold htag
  stampsDistinct s i r k b e hb he hstamp := by
    rcases h.way_cases hb with ⟨hs, hi, rfl⟩ | ⟨hbold, -⟩ <;> rcases h.way_cases he with ⟨hr, hk, rfl⟩ | ⟨heold, -⟩
    · exact ⟨hs.trans hr.symm, hi.trans hk.symm⟩
    · have := (hinv.stampsInRange r k e heold).2
      simp only at hstamp
      omega
    · have := (hinv.stampsInRange s i b hbold).2
      simp only at hstamp
      omega
    · exact hinv.stampsDistinct s i r k b e hbold heold hstamp
  stampsInRange s i b hb := by
    rw [h.counter]
    rcases h.way_cases hb with ⟨-, -, rfl⟩ | ⟨hbold, -⟩
    · exact ⟨Nat.le_add_left 1 _, le_rfl⟩
    · have := hinv.stampsInRange s i b hbold
      omega
  addressable s i b hb := by
    rw [Cache.blockAddr_congr h.cfg]
    rcases h.way_cases hb with ⟨rfl, -, rfl⟩ | ⟨hbold, -⟩
    · exact (c.tag_set_addr a).trans_lt (addr_lt a)
    · exact hinv.addressable s i b hbold
  counters := by
    have := h.counts
    have := hinv.counters
    rw [h.counter]
    omega

end

/-- `CacheRead` keeps the cache's invariant. -/
theorem CacheInv.read {c : Cache} (h : CacheInv c) (a : Addr) : CacheInv (c.read a).2 := by
  rcases c.find_cases a with ⟨j, b, hf⟩ | hf
  · exact h.of_stores (Cache.stores_read_hit h hf)
  · have hcounters := h.counters
    rw [Cache.read_of_miss hf]
    refine ⟨⟨h.shape.setCount, h.shape.wayCount⟩, h.filledFirst, h.tagsDistinct, h.stampsDistinct, fun s i b hb => ?_,
      h.addressable, ?_⟩
    · exact ⟨(h.stampsInRange s i b hb).1, (h.stampsInRange s i b hb).2.trans (Nat.le_succ _)⟩
    · simp only [Cache.tick_hits, Cache.tick_accessCounter]
      omega

/-- `CacheWrite` keeps the cache's invariant. -/
theorem CacheInv.write {c : Cache} (h : CacheInv c) (a : Addr) (v : Word) : CacheInv (c.write a v) :=
  h.of_stores (Cache.stores_write h a v)

theorem Cache.Empty.way_ne_some {c : Cache} (h : c.Empty) {s j : Nat} {b : Block} : c.way s j ≠ some b := by
  rw [h s j]
  nofun

/-- A fresh cache meets the invariant: all of it but the shape and the counters speaks of valid ways. -/
theorem CacheInv.fresh (cfg : CacheConfig) : CacheInv (Cache.fresh cfg) :=
  have hempty := Cache.fresh_empty cfg
  { shape := .fresh cfg
    filledFirst := fun _ _ _ _ hj => absurd (Option.some_get hj).symm hempty.way_ne_some
    tagsDistinct := fun _ _ _ _ _ hb => absurd hb hempty.way_ne_some
    stampsDistinct := fun _ _ _ _ _ _ hb => absurd hb hempty.way_ne_some
    stampsInRange := fun _ _ _ hb => absurd hb hempty.way_ne_some
    addressable := fun _ _ _ hb => absurd hb hempty.way_ne_some
    counters := le_rfl }

/-- Settles O53: an empty memory and an empty cache. -/
theorem resetMeetsTheInvariant : Obligations.ResetMeetsTheInvariant := fun cfg =>
  ⟨State.resetWith_mem_wf cfg, CacheInv.fresh cfg⟩

/-- An instruction keeps the invariant and the geometry: its effect is at most a memory write and two cache calls. -/
theorem exec_inv {i : Instr} {s t : State} (hinv : Inv s) (h : exec i s = .next t) :
    Inv t ∧ t.cache.cfg = s.cache.cfg := by
  obtain ⟨-, -, heff⟩ := exec_effect h
  cases heff with
  | quiet _ hmem hcache => exact ⟨⟨hmem ▸ hinv.mem, hcache ▸ hinv.cache⟩, hcache ▸ rfl⟩
  | hit _ _ hmem hcache => exact ⟨⟨hmem ▸ hinv.mem, hcache ▸ hinv.cache.read _⟩, by rw [hcache, Cache.read_cfg]⟩
  | miss _ _ hmem hcache =>
    refine ⟨⟨?_, hcache ▸ (hinv.cache.read _).write _ _⟩, by rw [hcache, Cache.write_cfg, Cache.read_cfg]⟩
    rw [hmem]
    split
    · exact hinv.mem
    · exact State.memWrite_wf _ _ _ hinv.mem
  | store _ hmem hcache =>
    exact ⟨⟨hmem ▸ State.memWrite_wf _ _ _ hinv.mem, hcache ▸ hinv.cache.write _ _⟩, by rw [hcache, Cache.write_cfg]⟩

/-- Settles O54: the frame of a step touches neither memory nor cache, and its instruction keeps the invariant. -/
theorem stepKeepsTheInvariant : Obligations.StepKeepsTheInvariant := by
  intro s t hinv h
  rcases step_next_cases h with ⟨-, rfl⟩ | ⟨-, u, hu, rfl⟩
  · exact ⟨hinv, rfl⟩
  · obtain ⟨⟨hmem, hcache⟩, hcfg⟩ := exec_inv hinv hu
    exact ⟨⟨hmem, hcache⟩, hcfg⟩

theorem Inv.memWrite {s : State} (h : Inv s) (a : Addr) (w : Word) (k : Kind) : Inv (s.memWrite a w k) :=
  ⟨State.memWrite_wf a w k h.mem, h.cache⟩

/-- Settles O55: reset meets the invariant, and the other operations are one memory write or one cache call. -/
theorem hostActionsKeepTheInvariant : Obligations.HostActionsKeepTheInvariant := by
  intro x s t hx hinv h
  cases x with
  | reset cfg =>
    cases h
    exact resetMeetsTheInvariant cfg
  | load a w k =>
    cases h
    exact hinv.memWrite a w k
  | step => exact absurd rfl hx
  | cacheRead a =>
    cases h
    exact ⟨hinv.mem, hinv.cache.read a⟩
  | cacheWrite a v =>
    cases h
    exact ⟨hinv.mem, hinv.cache.write a v⟩

end Sys2Proof.Machine
end

section
/-! SUPPORT. Coherence of cache and Backing Memory address by address, that every step keeps it, and what it makes of a LW;
the proofs of O56 to O59 (spec/20_memory.md R75, spec/10_state.md R36). -/

namespace Sys2Proof.Machine

theorem State.memRead_congr {s t : State} (h : s.mem = t.mem) (a : Addr) : s.memRead a = t.memRead a := by
  rw [State.memRead, State.memRead, State.entryAt_congr h]

theorem State.memRead_memWrite (s : State) (a : Addr) (v : Word) (k : Kind) (b : Addr) :
    (s.memWrite a v k).memRead b = if b = a then some v else s.memRead b := by
  rw [State.memRead, State.entryAt_memWrite]
  split <;> rfl

/-- After a LW that misses, its address holds the word it loads, created where it was absent; every other word is kept. -/
theorem State.memRead_of_miss {s t : State} {a : Addr}
    (h : t.mem = if s.memPresent a then s.mem else (s.memWrite a 0#32 .data).mem) (b : Addr) :
    t.memRead b = if b = a then some ((s.memRead a).getD 0#32) else s.memRead b := by
  cases hpres : s.memPresent a with
  | true =>
    obtain ⟨e, he⟩ := State.memPresent_iff.1 hpres
    rw [State.memRead_congr (h.trans (if_pos hpres))]
    split
    · next hb => rw [hb, State.memRead_of_entry he, Option.getD_some]
    · rfl
  | false =>
    rw [State.memRead_congr (h.trans (if_neg (by simp [hpres]))), State.memRead_memWrite,
      State.memRead_eq_none.2 (State.memPresent_eq_false.1 hpres), Option.getD_none]

/-- The block of address a is that of its set with its tag (R62). -/
theorem Cache.blockAddr_eq_iff (c : Cache) {s : Nat} (hs : s < c.cfg.numSets) (b : Block) (a : Addr) :
    c.blockAddr s b = a.toNat ↔ s = c.setIndex a ∧ b.tag = c.tagOf a := by
  rw [Cache.tagOf_eq_iff, Cache.setIndex, Cache.blockAddr]
  refine ⟨fun h => ?_, fun ⟨hset, htag⟩ => by rw [hset, htag, Nat.div_add_mod']⟩
  have hsum : s + c.cfg.numSets * b.tag.toNat = a.toNat := by rw [← h, Nat.add_comm, Nat.mul_comm]
  obtain ⟨hdiv, hmod⟩ := (Nat.div_mod_unique c.cfg.numSets.pos).2 ⟨hsum, hs⟩
  exact ⟨hmod.symm, hdiv.symm⟩

theorem Coherent.memRead {s : State} (h : Coherent s) {a : Addr} {j : Nat} {b : Block}
    (hb : s.cache.way (s.cache.setIndex a) j = some b) (htag : b.tag = s.cache.tagOf a) :
    s.memRead a = some b.data := by
  have hword := h _ j b hb
  rwa [(s.cache.blockAddr_eq_iff (s.cache.setIndex_lt a) b a).2 ⟨rfl, htag⟩] at hword

/-- Where every block has a legal address, coherence is what it says of the 256 addresses. -/
theorem Coherent.of_memRead {s : State} (hinv : CacheInv s.cache)
    (h : ∀ a j b, s.cache.way (s.cache.setIndex a) j = some b → b.tag = s.cache.tagOf a → s.memRead a = some b.data) :
    Coherent s := by
  intro set j b hb
  obtain ⟨a, ha⟩ : ∃ a : Addr, s.cache.blockAddr set b = a.toNat :=
    ⟨BitVec.ofNat 8 _, ((BitVec.toNat_ofNat ..).trans (Nat.mod_eq_of_lt (hinv.addressable set j b hb))).symm⟩
  obtain ⟨hset, htag⟩ := (s.cache.blockAddr_eq_iff (hinv.shape.set_lt hb) b a).1 ha
  rw [ha]
  exact h a j b (hset ▸ hb) htag

/-- A call that stores an address's word keeps coherence, where memory has that word there and is else as before. -/
theorem Coherent.of_stores {s t : State} {a : Addr} {v : Word} {j : Nat} (hco : Coherent s)
    (hinv : CacheInv s.cache) (hst : s.cache.Stores a v j t.cache)
    (hmem : ∀ b, t.memRead b = if b = a then some v else s.memRead b) : Coherent t := by
  refine Coherent.of_memRead (hinv.of_stores hst) fun b i d hd htag => ?_
  have hset : t.cache.setIndex b = s.cache.setIndex b := by rw [Cache.setIndex, Cache.setIndex, hst.cfg]
  have htagOf : t.cache.tagOf b = s.cache.tagOf b := by rw [Cache.tagOf, Cache.tagOf, hst.cfg]
  rw [hset] at hd
  rw [htagOf] at htag
  rw [hmem]
  rcases hst.way_cases hd with ⟨hab, -, rfl⟩ | ⟨hold, hnot⟩
  · rw [if_pos (s.cache.addr_eq_of_tag_set htag.symm hab)]
  · rw [if_neg (by rintro rfl; exact hnot ⟨rfl, htag⟩)]
    exact hco.memRead hold htag

/-- A hit's block has its address's word (R75). -/
theorem Coherent.memRead_of_hit {s : State} (h : Coherent s) {a : Addr} {j : Nat} {b : Block}
    (hf : s.cache.find a = some (j, b)) : s.memRead a = some b.data :=
  have ⟨hway, htag⟩ := Cache.find_way hf
  h.memRead hway htag

/-- A `CacheRead` that misses leaves every way, and so coherence. -/
theorem Coherent.withCache_read_of_miss {s : State} (h : Coherent s) {a : Addr} (hf : s.cache.find a = none) :
    Coherent (s.withCache (s.cache.read a).2) := fun set j b hb => by
  rw [State.withCache_cache, Cache.way_read_miss hf] at hb
  rw [State.withCache_cache, Cache.blockAddr_congr (s.cache.read_cfg a)]
  exact h set j b hb

/-- An instruction keeps coherence: what it puts in the cache is the word it leaves in memory (R75, R76). -/
theorem exec_coherent {i : Instr} {s t : State} (hinv : Inv s) (hco : Coherent s) (h : exec i s = .next t) :
    Coherent t := by
  obtain ⟨-, -, heff⟩ := exec_effect h
  have hcache := hinv.cache
  cases heff with
  | quiet _ hmem hcache => rwa [Coherent, hmem, hcache]
  | @hit rs rt imm a j b _ hf hmem hread =>
    refine hco.of_stores hcache (hread ▸ Cache.stores_read_hit hcache hf) fun x => ?_
    rw [State.memRead_congr hmem]
    split
    · next hx => rw [hx, hco.memRead_of_hit hf]
    · rfl
  | @miss rs rt imm a _ hf hmem hwrite =>
    exact (hco.withCache_read_of_miss hf).of_stores (hcache.read a)
      (hwrite ▸ Cache.stores_write (hcache.read a) a _) (State.memRead_of_miss hmem)
  | @store rs rt imm a _ hmem hwrite =>
    refine hco.of_stores hcache (hwrite ▸ Cache.stores_write hcache a _) fun x => ?_
    rw [State.memRead_congr hmem, State.memRead_memWrite]

/-- Settles O56: the frame of a step touches neither memory nor cache, and its instruction keeps coherence. -/
theorem stepKeepsCoherence : Obligations.StepKeepsCoherence := by
  intro s t hinv hco h
  rcases step_next_cases h with ⟨-, rfl⟩ | ⟨-, u, hu, rfl⟩
  · exact hco
  · have hco' : Coherent u := exec_coherent hinv hco hu
    exact hco'

/-- A loaded state meets the invariant, and nothing is cached in it. -/
theorem Loaded.inv_empty {s : State} (h : Loaded s) : Inv s ∧ s.cache.Empty := by
  induction h with
  | reset cfg => exact ⟨resetMeetsTheInvariant cfg, Cache.fresh_empty cfg⟩
  | load a w k _ ih => exact ⟨ih.1.memWrite a w k, ih.2⟩

theorem Coherent.of_empty {s : State} (h : s.cache.Empty) : Coherent s := fun _ _ _ hb =>
  absurd hb h.way_ne_some

/-- Settles O57: the three hold in every loaded state, and every step keeps or makes them. -/
theorem dutifulRunsAreCoherent : Obligations.DutifulRunsAreCoherent := by
  intro s h
  induction h with
  | start hloaded =>
    obtain ⟨hinv, hempty⟩ := hloaded.inv_empty
    exact ⟨hinv, .of_empty hempty, .inl hloaded.at_start.1⟩
  | step _ hstep ih =>
    obtain ⟨hinv, hco, -⟩ := ih
    exact ⟨(stepKeepsTheInvariant _ _ hinv hstep).1, stepKeepsCoherence _ _ hinv hco hstep,
      .inr (step_halted_or_present hstep)⟩

/-! What a program sees of a LW in a coherent state (R36, R75). -/

/-- Hit or miss, the word loaded is memory's. -/
theorem Coherent.loadWord {s : State} (h : Coherent s) (a : Addr) : s.loadWord a = (s.memRead a).getD 0#32 := by
  rcases s.cache.find_cases a with ⟨j, b, hf⟩ | hf
  · rw [State.loadWord_of_hit hf, h.memRead_of_hit hf, Option.getD_some]
  · exact State.loadWord_of_miss hf

theorem exec_readReg_dest {i : Instr} {s t : State} (h : exec i s = .next t) {d : RegIdx} (hd : destOf i = some d) :
    t.readReg d = resultOf i s := by
  obtain ⟨hregs, -, -⟩ := exec_effect h
  rw [State.readReg_congr hregs, State.writeDest, hd]
  exact s.readReg_writeReg_same d _

/-- Settles O58: the destination reads the word loaded, which coherence makes memory's. -/
theorem loadReturnsTheMemoryWord : Obligations.LoadReturnsTheMemoryWord := fun _ _ _ _ _ hco h =>
  (exec_readReg_dest h rfl).trans (hco.loadWord _)

/-- Backing Memory after an instruction in a coherent state, where the cache plays no part: a LW creates its address exactly
where it is absent. -/
def memAfter (i : Instr) (s : State) : Memory :=
  match i with
  | .lw rs _ imm =>
    if s.memPresent (effectiveAddr (s.readReg rs) imm) then s.mem
    else (s.memWrite (effectiveAddr (s.readReg rs) imm) 0#32 .data).mem
  | .sw rs rt imm => (s.memWrite (effectiveAddr (s.readReg rs) imm) (s.readReg rt) .data).mem
  | _ => s.mem

theorem exec_mem_of_coherent {i : Instr} {s t : State} (hco : Coherent s) (h : exec i s = .next t) :
    t.mem = memAfter i s := by
  obtain ⟨-, -, heff⟩ := exec_effect h
  cases heff with
  | quiet hi hmem =>
    cases i with
    | lw rs rt imm => exact absurd rfl (hi rs rt imm).1
    | sw rs rt imm => exact absurd rfl (hi rs rt imm).2
    | _ => exact hmem
  | @hit rs rt imm a j b ha hf hmem =>
    have hpres : s.memPresent a = true := by
      rw [State.memPresent, ← Option.isSome_map (f := Entry.word)]
      exact Option.isSome_iff_exists.2 ⟨_, hco.memRead_of_hit hf⟩
    rw [hmem, memAfter, ← ha, if_pos hpres]
  | miss ha _ hmem => rw [hmem, memAfter, ← ha]
  | store ha hmem => rw [hmem, memAfter, ← ha]

/-- What a program sees of an instruction in a coherent state: its result, with every LW's word from memory, the new pc, and
`memAfter`. -/
theorem exec_view_of_coherent {i : Instr} {s t : State} (hco : Coherent s) (h : exec i s = .next t) :
    t.view = { s.view with regs := (s.writeDest i (resultOf i s)).regs, pc := pcAfter i s, mem := memAfter i s } := by
  obtain ⟨hregs, hpc, -⟩ := exec_effect h
  obtain ⟨hhalted, hcycles⟩ := exec_controlKept h
  rw [State.view, hregs, hpc, hhalted, hcycles, exec_mem_of_coherent hco h]
  rfl

/-- States with one view differ in the cache alone. -/
theorem State.eq_withCache_of_view {s s' : State} (h : s.view = s'.view) : s' = s.withCache s'.cache := by
  obtain ⟨regs, pc, halted, cycles, mem, cache⟩ := s
  obtain ⟨regs', pc', halted', cycles', mem', cache'⟩ := s'
  cases h
  rfl

/-- Only a LW's result can depend on the cache. -/
theorem resultOf_withCache {s : State} {c : Cache} (h : ∀ a, (s.withCache c).loadWord a = s.loadWord a) (i : Instr) :
    resultOf i (s.withCache c) = resultOf i s := by
  cases i with
  | lw rs rt imm => exact h _
  | _ => rfl

theorem State.writeDest_withCache_regs (s : State) (c : Cache) (i : Instr) (v : Word) :
    ((s.withCache c).writeDest i v).regs = (s.writeDest i v).regs := by
  unfold State.writeDest
  split <;> rfl

theorem pcAfter_withCache (s : State) (c : Cache) (i : Instr) : pcAfter i (s.withCache c) = pcAfter i s := by
  cases i <;> rfl

theorem memAfter_withCache (s : State) (c : Cache) (i : Instr) : memAfter i (s.withCache c) = memAfter i s := by
  cases i <;> rfl

/-- In two coherent states with one view an instruction makes one view. -/
theorem exec_view_congr {i : Instr} {s s' t t' : State} (hco : Coherent s) (hco' : Coherent s')
    (hview : s.view = s'.view) (h : exec i s = .next t) (h' : exec i s' = .next t') : t.view = t'.view := by
  rw [exec_view_of_coherent hco h, exec_view_of_coherent hco' h']
  obtain ⟨c, rfl⟩ : ∃ c, s' = s.withCache c := ⟨_, State.eq_withCache_of_view hview⟩
  have hload : ∀ a, (s.withCache c).loadWord a = s.loadWord a := fun a => by
    rw [hco.loadWord, hco'.loadWord, State.memRead_withCache]
  rw [resultOf_withCache hload, State.writeDest_withCache_regs, pcAfter_withCache, memAfter_withCache]
  rfl

/-- The end of a step looks at the view alone (R134, R135). -/
theorem State.view_finishStep_congr {s s' : State} (h : s.view = s'.view) : s.finishStep.view = s'.finishStep.view := by
  rw [State.eq_withCache_of_view h]
  rfl

/-- Two steps from states with one halted flag and one fetched word: both do nothing, or both run one instruction. -/
theorem step_next_cases_pair {s s' t t' : State} (hhalted : s.halted = s'.halted) (hfetch : s.fetch = s'.fetch)
    (h : step s = .next t) (h' : step s' = .next t') :
    (t = s ∧ t' = s') ∨ ∃ i u u', exec i s = .next u ∧ exec i s' = .next u' ∧ t = u.finishStep ∧ t' = u'.finishStep := by
  rcases step_next_cases h with ⟨hs, ht⟩ | ⟨hs, u, hu, ht⟩ <;>
    rcases step_next_cases h' with ⟨hs', ht'⟩ | ⟨hs', u', hu', ht'⟩
  · exact .inl ⟨ht, ht'⟩
  · simp [hs, hs'] at hhalted
  · simp [hs, hs'] at hhalted
  · exact .inr ⟨_, u, u', hu, hfetch ▸ hu', ht, ht'⟩

/-- Settles O59: both states fetch one word, and its instruction and the end of the step keep the views equal. -/
theorem cacheIsInvisibleToPrograms : Obligations.CacheIsInvisibleToPrograms := by
  intro s s' t t' hco hco' hview h h'
  have hhalted : s.halted = s'.halted := congrArg ProgramView.halted hview
  have hfetch : s.fetch = s'.fetch :=
    State.fetch_congr (congrArg ProgramView.mem hview) (congrArg ProgramView.pc hview)
  rcases step_next_cases_pair hhalted hfetch h h' with ⟨rfl, rfl⟩ | ⟨i, u, u', hu, hu', rfl, rfl⟩
  · exact hview
  · exact State.view_finishStep_congr (exec_view_congr hco hco' hview hu hu')

end Sys2Proof.Machine
end

section
/-! SUPPORT. That no instruction and no step looks at a kind tag, and that the canonical form of Backing Memory has one list for
each content; the proofs of O51 and O52 (spec/20_memory.md R51, spec/10_state.md R33). -/

namespace Sys2Proof.Machine

/-- Two states that differ in kind tags alone (R51). -/
structure EqualButKinds (s s' : State) : Prop where
  regs : s.regs = s'.regs
  pc : s.pc = s'.pc
  halted : s.halted = s'.halted
  cycles : s.cycles = s'.cycles
  cache : s.cache = s'.cache
  words : ∀ a, s.memRead a = s'.memRead a

section
variable {s s' t t' : State} {i : Instr}

theorem EqualButKinds.fetch_eq (h : EqualButKinds s s') : s.fetch = s'.fetch := by
  rw [State.fetch, State.fetch, h.pc, h.words]

theorem EqualButKinds.resultOf_eq (h : EqualButKinds s s') : resultOf i s = resultOf i s' := by
  have hread := State.readReg_congr h.regs
  have hload : ∀ a, s.loadWord a = s'.loadWord a := fun a => by
    rw [State.loadWord, State.loadWord, h.cache, h.words]
  cases i <;> simp only [resultOf, hread, hload]

theorem EqualButKinds.pcAfter_eq (h : EqualButKinds s s') : pcAfter i s = pcAfter i s' := by
  have hread := State.readReg_congr h.regs
  cases i <;> simp only [pcAfter, hread, h.pc]

theorem State.writeDest_regs_congr (h : s.regs = s'.regs) (i : Instr) (v : Word) :
    (s.writeDest i v).regs = (s'.writeDest i v).regs := by
  unfold State.writeDest
  split
  · rw [State.writeReg_regs, State.writeReg_regs, h]
  · exact h

/-- Caches stay equal and so do the words of memory: an instruction has one effect on states that differ in tags alone. -/
theorem MemEffect.congr_of_equalButKinds (h : EqualButKinds s s') (heff : MemEffect s t i) (heff' : MemEffect s' t' i) :
    t.cache = t'.cache ∧ ∀ a, t.memRead a = t'.memRead a := by
  have hread := State.readReg_congr h.regs
  cases heff with
  | quiet hi hmem hcache =>
    cases heff' with
    | quiet _ hmem' hcache' =>
      exact ⟨by rw [hcache, hcache', h.cache], fun a => by
        rw [State.memRead_congr hmem, State.memRead_congr hmem', h.words]⟩
    | hit => exact absurd rfl (hi ..).1
    | miss => exact absurd rfl (hi ..).1
    | store => exact absurd rfl (hi ..).2
  | hit ha hf hmem hcache =>
    rw [hread] at ha
    cases heff' with
    | quiet hi => exact absurd rfl (hi ..).1
    | hit ha' _ hmem' hcache' =>
      exact ⟨by rw [hcache, hcache', h.cache, ha, ha'], fun a => by
        rw [State.memRead_congr hmem, State.memRead_congr hmem', h.words]⟩
    | miss ha' hf' =>
      rw [h.cache, ha, ← ha', hf'] at hf
      cases hf
  | miss ha hf hmem hcache =>
    rw [hread] at ha
    cases heff' with
    | quiet hi => exact absurd rfl (hi ..).1
    | hit ha' hf' =>
      rw [h.cache, ha, ← ha', hf'] at hf
      cases hf
    | miss ha' _ hmem' hcache' =>
      exact ⟨by rw [hcache, hcache', h.cache, h.words, ha, ha'], fun a => by
        rw [State.memRead_of_miss hmem, State.memRead_of_miss hmem', h.words, h.words, ha, ha']⟩
  | store ha hmem hcache =>
    rw [hread] at ha
    cases heff' with
    | quiet hi => exact absurd rfl (hi ..).2
    | store ha' hmem' hcache' =>
      exact ⟨by rw [hcache, hcache', h.cache, hread, ha, ha'], fun a => by
        rw [State.memRead_congr hmem, State.memRead_congr hmem', State.memRead_memWrite, State.memRead_memWrite,
          h.words, hread, ha, ha']⟩

/-- No instruction looks at a kind tag. -/
theorem EqualButKinds.of_exec (h : EqualButKinds s s') (hexec : exec i s = .next t) (hexec' : exec i s' = .next t') :
    EqualButKinds t t' := by
  obtain ⟨hregs, hpc, heff⟩ := exec_effect hexec
  obtain ⟨hregs', hpc', heff'⟩ := exec_effect hexec'
  obtain ⟨hhalted, hcycles⟩ := exec_controlKept hexec
  obtain ⟨hhalted', hcycles'⟩ := exec_controlKept hexec'
  obtain ⟨hcache, hwords⟩ := heff.congr_of_equalButKinds h heff'
  refine ⟨?_, ?_, ?_, ?_, hcache, hwords⟩
  · rw [hregs, hregs', h.resultOf_eq, State.writeDest_regs_congr h.regs]
  · rw [hpc, hpc', h.pcAfter_eq]
  · rw [hhalted, hhalted', h.halted]
  · rw [hcycles, hcycles', h.cycles]

theorem State.memPresent_eq_isSome_memRead (s : State) (a : Addr) : s.memPresent a = (s.memRead a).isSome :=
  Option.isSome_map.symm

/-- The halt check asks whether an entry is there, not what it is (R135). -/
theorem EqualButKinds.finishStep (h : EqualButKinds s s') : EqualButKinds s.finishStep s'.finishStep where
  regs := h.regs
  pc := h.pc
  halted := by
    rw [State.finishStep_halted, State.finishStep_halted, State.memPresent_eq_isSome_memRead,
      State.memPresent_eq_isSome_memRead, h.halted, h.pc, h.words]
  cycles := congrArg (· + 1) h.cycles
  cache := h.cache
  words := h.words

/-- No step looks at a kind tag. -/
theorem EqualButKinds.of_step (h : EqualButKinds s s') (hstep : step s = .next t) (hstep' : step s' = .next t') :
    EqualButKinds t t' := by
  rcases step_next_cases_pair h.halted h.fetch_eq hstep hstep' with ⟨rfl, rfl⟩ | ⟨i, u, u', hu, hu', rfl, rfl⟩
  · exact h
  · exact (h.of_exec hu hu').finishStep

end

/-- Settles O51: `EqualButKinds` is kept by every step. -/
theorem kindTagsAreNeverRead : Obligations.KindTagsAreNeverRead := by
  intro s s' t t' hregs hpc hhalted hcycles hcache hwords hstep hstep'
  obtain ⟨hregs, hpc, hhalted, hcycles, hcache, hwords⟩ :=
    EqualButKinds.of_step ⟨hregs, hpc, hhalted, hcycles, hcache, hwords⟩ hstep hstep'
  exact ⟨hregs, hpc, hhalted, hcycles, hcache, hwords⟩

/-! The canonical form. -/

/-- In canonical form the cells are what a read finds. -/
theorem Memory.mem_iff_entryAt {m : Memory} (h : m.Pairwise (fun p q => p.1 < q.1)) (a : Nat) (e : Entry) :
    (a, e) ∈ m ↔ m.entryAt a = some e := by
  induction m with
  | nil => simp
  | cons p m ih =>
    obtain ⟨b, f⟩ := p
    obtain ⟨hb, hm⟩ := List.pairwise_cons.1 h
    rw [List.mem_cons, ih hm, Memory.entryAt_cons]
    split
    · next hab =>
      subst hab
      have hnone : ¬Memory.entryAt m a = some e := fun he => lt_irrefl a (hb (a, e) ((ih hm).2 he))
      simp [hnone, eq_comm]
    · next hab => simp [hab]

/-- Settles O52: both lists have the same cells, in the one rising order. -/
theorem equalReadsMeanEqualMemories : Obligations.EqualReadsMeanEqualMemories := by
  rintro m n ⟨hm, hmlt⟩ ⟨hn, hnlt⟩ h
  have hreads : ∀ a, a < Config.memWords → m.entryAt a = n.entryAt a := fun a ha => by
    have haddr := h (BitVec.ofNat 8 a)
    rwa [(BitVec.toNat_ofNat ..).trans (Nat.mod_eq_of_lt ha)] at haddr
  have hirrefl : Std.Irrefl fun p q : Nat × Entry => p.1 < q.1 := ⟨fun p => lt_irrefl p.1⟩
  have hantisymm : Std.Antisymm fun p q : Nat × Entry => p.1 < q.1 := ⟨fun _ _ hpq hqp => absurd hpq hqp.not_gt⟩
  refine hm.eq_of_mem_iff hn fun ⟨a, e⟩ => ⟨fun hmem => ?_, fun hmem => ?_⟩
  · rwa [Memory.mem_iff_entryAt hn, ← hreads a (hmlt _ hmem), ← Memory.mem_iff_entryAt hm]
  · rwa [Memory.mem_iff_entryAt hm, hreads a (hnlt _ hmem), ← Memory.mem_iff_entryAt hn]

end Sys2Proof.Machine
end
